-- ==== Sys2Proof/Word.lean ====
section
/-! DEFINITION. The words of the CFE (spec 00_scope.md R9, R10; 20_memory.md R81): registers are 32 bits,
the frame buffer holds bytes, the slave port decodes 17 address bits. -/

namespace Sys2Proof

/-- A register's value, and the port's write and read data. -/
abbrev Word := BitVec 32

/-- One byte of the frame buffer, or of a frame. -/
abbrev Byte := BitVec 8

/-- A CFE offset on the slave port (R80: 17 address bits). -/
abbrev Addr := BitVec 17

end Sys2Proof
end

