-- ==== Sys2Proof/Config.lean ====
section
/-! DEFINITION. What an implementation fixes, and the free values (spec 00_scope.md R8, 93_implementation_defined.md). -/

namespace Sys2Proof

/-- The two implementation parameters that software can see (R8, R51). The model takes them as an argument: they stand
in a field of State that no step changes (DESIGN CHOICE, log entry 1). -/
structure Params where
  /-- `BUF_BYTES`, the size of the frame buffer in bytes. -/
  bufBytes : Nat
  /-- `NDESC`, the number of descriptor-table entries. -/
  ndesc : Nat
deriving DecidableEq, Repr

/-- The spec's default parameters (92_eei_decisions.md D2). -/
def Params.default : Params := { bufBytes := 1024, ndesc := 16 }

/-- R8's legal ranges of the parameters. -/
abbrev Params.legal (p : Params) : Prop :=
  (8 ≤ p.bufBytes ∧ p.bufBytes ≤ 65536) ∧ (1 ≤ p.ndesc ∧ p.ndesc ≤ 240)

/-- `BLOCK_BASE`, OPEN in R8: where the platform puts CFE offset 0. No proof can see its value (log entry 2). -/
opaque Config.blockBase : Nat

/-- `IRQ_LINE`, OPEN in R8: the platform interrupt input that `irq` drives (log entry 2). -/
opaque Config.irqLine : Nat

/-- The free value of the n-th read of CRC_STATE or CRC_RESULT made while a CRC_INIT or CRC_BLOCK is in flight
(42_control.md R239, U3: "A model draws it freely"). No proof can see its values (log entry 6). -/
opaque Config.freeRead : Nat → Word

end Sys2Proof
end

