-- ==== Sys2Proof/Syntax.lean ====
section
/-! DEFINITION. The operations of the CFE as syntax: the commands of 30_encoding.md R111 and the host operations of
R116, one constructor of Instr per mnemonic of spec/opcode_table.json. Rows that share a mnemonic (one rule, several
offsets) are one constructor with a register operand. -/

namespace Sys2Proof

/-- The four words of a descriptor-table entry (10_state.md R53). -/
inductive DescWord where
  | hdr | size | crcStart | crcLen
deriving DecidableEq, Repr

/-- The registers RD_REG reads (30_encoding.md R116, the table's rows). CRC_STATE and CRC_RESULT have operations of
their own. -/
inductive ReadReg where
  | ctrl | status | cmd | maxSize | frameBase | blkStart | blkLen
  | crcPoly | crcInit | crcXorout | crcCfg | crcData8 | crcData32
  | rxFlag | rxLen | rxType | rxCrc | calcCrc | infoBuf | infoNdesc
  | desc (i : BitVec 8) (k : DescWord)
deriving DecidableEq, Repr

/-- The registers WR_CRC_CONFIG writes (40_crc_engine.md R165). -/
inductive CrcReg where
  | poly | init | xorout | cfg
deriving DecidableEq, Repr

/-- The registers WR_OPERAND writes (42_control.md R239). -/
inductive OperandReg where
  | maxSize | frameBase | blkStart | blkLen
  | desc (i : BitVec 8) (k : DescWord)
deriving DecidableEq, Repr

/-- The read-only registers, which WR_RO names (42_control.md R240). -/
inductive RoReg where
  | crcResult | rxFlag | rxLen | rxType | rxCrc | calcCrc | infoBuf | infoNdesc
deriving DecidableEq, Repr

/-- The legal widths of a buffer-window access (20_memory.md R84). -/
inductive AccessSize where
  | byte | half | word
deriving DecidableEq, Repr

/-- The operations. The first sixteen are commands, executed by the engine at completion; the others are host
transactions. A host write carries the whole `wdata`; what a register ignores of it, its meaning ignores. -/
inductive Instr where
  | nop
  | crcInit
  | crcBlock (seed : Bool)
  | encodeFrame (d : BitVec 8)
  | decodeFrame (d : BitVec 8)
  | reserved5
  | reserved6
  | reserved7
  | reserved8
  | reserved9
  | reservedA
  | reservedB
  | reservedC
  | reservedD
  | reservedE
  | reservedF
  | wrCrcData8 (w : Word)
  | wrCrcData32 (w : Word)
  | wrCrcState (w : Word)
  | rdCrcResult
  | rdCrcState
  | wrCrcConfig (r : CrcReg) (w : Word)
  | wrCmd (w : Word)
  | wrCtrl (w : Word)
  | wrStatus (w : Word)
  | rdReg (r : ReadReg)
  | wrOperand (r : OperandReg) (w : Word)
  | wrRo (r : RoReg) (w : Word)
  | bufWr (sz : AccessSize) (o : BitVec 16) (w : Word)
  | bufRd (sz : AccessSize) (o : BitVec 16)
deriving DecidableEq, Repr

/-- One transaction as the slave port's input signals present it (20_memory.md R81). -/
structure BusTxn where
  /-- 1 = write, 0 = read. -/
  we : Bool
  /-- CFE offset of the lowest byte accessed. -/
  addr : Addr
  /-- 0 = 1 byte, 1 = 2 bytes, 2 = 4 bytes, 3 = illegal. -/
  size : BitVec 2
  /-- Write data, right-justified; a read ignores it. -/
  wdata : Word
deriving DecidableEq, Repr

/-- An encoded operation: a command word, as the engine finds it in `pending`, or a bus transaction. -/
inductive Raw where
  | command (w : Word)
  | bus (t : BusTxn)
deriving DecidableEq, Repr

end Sys2Proof
end

