-- ==== Sys2Proof/WellFormed.lean ====
section
/-! DEFINITION. Which operations name something that exists: a descriptor operand below NDESC (10_state.md R53), a
window access naturally aligned and inside BUF_BYTES (20_memory.md R84). Every other term is well-formed. -/

namespace Sys2Proof

/-- The number n of bytes of an access (R84: `n = 2^size`). -/
def AccessSize.bytes : AccessSize → Nat
  | .byte => 1
  | .half => 2
  | .word => 4

/-- R53: the entries are numbered 0 to NDESC-1. -/
abbrev descInTable (p : Params) (i : BitVec 8) : Prop := i.toNat < p.ndesc

/-- R84: `o mod n = 0` and `o + n <= BUF_BYTES`. -/
abbrev inWindow (p : Params) (sz : AccessSize) (o : BitVec 16) : Prop :=
  o.toNat % sz.bytes = 0 ∧ o.toNat + sz.bytes ≤ p.bufBytes

/-- A register RD_REG may name is mapped. -/
def ReadReg.wf (p : Params) : ReadReg → Bool
  | .desc i _ => decide (descInTable p i)
  | _ => true

/-- A register WR_OPERAND may name is mapped. -/
def OperandReg.wf (p : Params) : OperandReg → Bool
  | .desc i _ => decide (descInTable p i)
  | _ => true

/-- The operation names only registers and bytes that exist under the parameters `p`. -/
def Instr.wf (p : Params) : Instr → Bool
  | .nop => true
  | .crcInit => true
  | .crcBlock _ => true
  | .encodeFrame _ => true
  | .decodeFrame _ => true
  | .reserved5 => true
  | .reserved6 => true
  | .reserved7 => true
  | .reserved8 => true
  | .reserved9 => true
  | .reservedA => true
  | .reservedB => true
  | .reservedC => true
  | .reservedD => true
  | .reservedE => true
  | .reservedF => true
  | .wrCrcData8 _ => true
  | .wrCrcData32 _ => true
  | .wrCrcState _ => true
  | .rdCrcResult => true
  | .rdCrcState => true
  | .wrCrcConfig _ _ => true
  | .wrCmd _ => true
  | .wrCtrl _ => true
  | .wrStatus _ => true
  | .rdReg r => r.wf p
  | .wrOperand r _ => r.wf p
  | .wrRo _ _ => true
  | .bufWr sz o _ => decide (inWindow p sz o)
  | .bufRd sz o => decide (inWindow p sz o)

end Sys2Proof
end

