-- ==== Sys2Proof/Decode.lean ====
section
/-! DEFINITION. Decoding: the command word (30_encoding.md R110 to R115), the slave port's transactions (R116,
20_memory.md R83 and R84), and the encoder written from the same tables. Decoding is total: a command word always
decodes (R115), and a transaction decodes or is rejected by name as a bus error (60_exceptions.md R252). -/

namespace Sys2Proof

/-- Why the slave port answers a transaction with `err` (60_exceptions.md R252). -/
inductive BusErrorCause where
  /-- Register space: not a 4-byte access (R83). Window: size = 3 (R84). -/
  | badSize
  /-- Register space: `addr[1:0] != 0` (R83). Window: `o mod n != 0` (R84). -/
  | misaligned
  /-- A register-space offset that R31 does not list (R83). -/
  | unmapped
  /-- A window access with `o + n > BUF_BYTES` (R84). -/
  | beyondBuffer
deriving DecidableEq, Repr

/-- A rejected transaction: its address and why. -/
structure BusReject where
  addr : Addr
  cause : BusErrorCause
deriving DecidableEq, Repr

/-! ### The command word, CMDFMT -/

/-- OP, `cmd[3:0]` (R110). -/
def cmdOp (w : Word) : BitVec 4 := w.extractLsb' 0 4

/-- SEED, `cmd[4]` (R112). -/
def cmdSeed (w : Word) : Bool := w.getLsbD 4

/-- The DESC operand d, `cmd[15:8]` (R113). -/
def cmdDesc (w : Word) : BitVec 8 := w.extractLsb' 8 8

/-- R111: OP alone selects the operation; the reserved bits are ignored (R114). The last arm is OP = 0xF, the only
value of a 4-bit field that is left. -/
def decodeCommand (w : Word) : Instr :=
  match (cmdOp w).toNat with
  | 0x0 => .nop
  | 0x1 => .crcInit
  | 0x2 => .crcBlock (cmdSeed w)
  | 0x3 => .encodeFrame (cmdDesc w)
  | 0x4 => .decodeFrame (cmdDesc w)
  | 0x5 => .reserved5
  | 0x6 => .reserved6
  | 0x7 => .reserved7
  | 0x8 => .reserved8
  | 0x9 => .reserved9
  | 0xA => .reservedA
  | 0xB => .reservedB
  | 0xC => .reservedC
  | 0xD => .reservedD
  | 0xE => .reservedE
  | _ => .reservedF

/-! ### Host transactions -/

/-- Word k of an entry, by `addr[3:2]` (R53: HDR +0x0, SIZE +0x4, CRC_START +0x8, CRC_LEN +0xC). -/
def descWordAt (k : Nat) : DescWord :=
  match k % 4 with
  | 0 => .hdr
  | 1 => .size
  | 2 => .crcStart
  | _ => .crcLen

/-- The descriptor word at the aligned offset `a`, where `0x100 <= a < 0x100 + 16*NDESC` (R53, R83). -/
def descAt (p : Params) (a : Nat) : Option (BitVec 8 × DescWord) :=
  if 0x100 ≤ a ∧ a < 0x100 + 16 * p.ndesc then
    some (BitVec.ofNat 8 ((a - 0x100) / 16), descWordAt (a / 4))
  else none

/-- The write operation of the register at the aligned offset `a` (R116), none where `a` is unmapped. -/
def decodeRegWrite (p : Params) (a : Nat) (w : Word) : Option Instr :=
  match a with
  | 0x000 => some (.wrCtrl w)
  | 0x004 => some (.wrStatus w)
  | 0x008 => some (.wrCmd w)
  | 0x00C => some (.wrOperand .maxSize w)
  | 0x010 => some (.wrOperand .frameBase w)
  | 0x014 => some (.wrOperand .blkStart w)
  | 0x018 => some (.wrOperand .blkLen w)
  | 0x01C => some (.wrCrcConfig .poly w)
  | 0x020 => some (.wrCrcConfig .init w)
  | 0x024 => some (.wrCrcConfig .xorout w)
  | 0x028 => some (.wrCrcConfig .cfg w)
  | 0x02C => some (.wrCrcState w)
  | 0x030 => some (.wrRo .crcResult w)
  | 0x034 => some (.wrCrcData8 w)
  | 0x038 => some (.wrCrcData32 w)
  | 0x03C => some (.wrRo .rxFlag w)
  | 0x040 => some (.wrRo .rxLen w)
  | 0x044 => some (.wrRo .rxType w)
  | 0x048 => some (.wrRo .rxCrc w)
  | 0x04C => some (.wrRo .calcCrc w)
  | 0x050 => some (.wrRo .infoBuf w)
  | 0x054 => some (.wrRo .infoNdesc w)
  | _ => (descAt p a).map fun e => .wrOperand (.desc e.1 e.2) w

/-- The read operation of the register at the aligned offset `a` (R116), none where `a` is unmapped. -/
def decodeRegRead (p : Params) (a : Nat) : Option Instr :=
  match a with
  | 0x000 => some (.rdReg .ctrl)
  | 0x004 => some (.rdReg .status)
  | 0x008 => some (.rdReg .cmd)
  | 0x00C => some (.rdReg .maxSize)
  | 0x010 => some (.rdReg .frameBase)
  | 0x014 => some (.rdReg .blkStart)
  | 0x018 => some (.rdReg .blkLen)
  | 0x01C => some (.rdReg .crcPoly)
  | 0x020 => some (.rdReg .crcInit)
  | 0x024 => some (.rdReg .crcXorout)
  | 0x028 => some (.rdReg .crcCfg)
  | 0x02C => some .rdCrcState
  | 0x030 => some .rdCrcResult
  | 0x034 => some (.rdReg .crcData8)
  | 0x038 => some (.rdReg .crcData32)
  | 0x03C => some (.rdReg .rxFlag)
  | 0x040 => some (.rdReg .rxLen)
  | 0x044 => some (.rdReg .rxType)
  | 0x048 => some (.rdReg .rxCrc)
  | 0x04C => some (.rdReg .calcCrc)
  | 0x050 => some (.rdReg .infoBuf)
  | 0x054 => some (.rdReg .infoNdesc)
  | _ => (descAt p a).map fun e => .rdReg (.desc e.1 e.2)

/-- The width that the port's `size` signal names (R81), none for the illegal 3. -/
def sizeOfField (s : BitVec 2) : Option AccessSize :=
  match s.toNat with
  | 0 => some .byte
  | 1 => some .half
  | 2 => some .word
  | _ => none

/-- R83: register-space decode, `addr < 0x10000`. -/
def decodeRegister (p : Params) (t : BusTxn) : Except BusReject Instr :=
  if t.size ≠ 2 then .error { addr := t.addr, cause := .badSize }
  else if t.addr.toNat % 4 ≠ 0 then .error { addr := t.addr, cause := .misaligned }
  else
    match (if t.we then decodeRegWrite p t.addr.toNat t.wdata else decodeRegRead p t.addr.toNat) with
    | some i => .ok i
    | none => .error { addr := t.addr, cause := .unmapped }

/-- R84: the bus-error checks of a window access at `o = addr - 0x10000`, in the rule's order. -/
def decodeWindow (p : Params) (t : BusTxn) : Except BusReject Instr :=
  match sizeOfField t.size with
  | none => .error { addr := t.addr, cause := .badSize }
  | some sz =>
    let o : BitVec 16 := t.addr.setWidth 16
    if o.toNat % sz.bytes ≠ 0 then .error { addr := t.addr, cause := .misaligned }
    else if o.toNat + sz.bytes > p.bufBytes then .error { addr := t.addr, cause := .beyondBuffer }
    else .ok (if t.we then .bufWr sz o t.wdata else .bufRd sz o)

/-- A host transaction: bit 16 of the address chooses the space (R80). -/
def decodeTxn (p : Params) (t : BusTxn) : Except BusReject Instr :=
  if t.addr.toNat < 0x10000 then decodeRegister p t else decodeWindow p t

/-- The decoder: total on every command word and every transaction. -/
def decode (p : Params) : Raw → Except BusReject Instr
  | .command w => .ok (decodeCommand w)
  | .bus t => decodeTxn p t

/-! ### The encoder -/

/-- A command word with its reserved bits 0 (R110; R123: `w = OP | seed << 4 | d << 8`). -/
def commandWord (op : BitVec 4) (seed : Bool) (d : BitVec 8) : Word :=
  0#16 ++ d ++ 0#3 ++ BitVec.ofBool seed ++ op

/-- The offset of descriptor word k (R121: `off(DESC<i>_<F>) = 0x100 + 16*i + 4*k`). -/
def descOffset (i : BitVec 8) (k : DescWord) : Addr :=
  let kn := match k with
    | .hdr => 0
    | .size => 1
    | .crcStart => 2
    | .crcLen => 3
  BitVec.ofNat 17 (0x100 + 16 * i.toNat + 4 * kn)

/-- R31's offset of a register RD_REG reads. -/
def ReadReg.offset : ReadReg → Addr
  | .ctrl => 0x000
  | .status => 0x004
  | .cmd => 0x008
  | .maxSize => 0x00C
  | .frameBase => 0x010
  | .blkStart => 0x014
  | .blkLen => 0x018
  | .crcPoly => 0x01C
  | .crcInit => 0x020
  | .crcXorout => 0x024
  | .crcCfg => 0x028
  | .crcData8 => 0x034
  | .crcData32 => 0x038
  | .rxFlag => 0x03C
  | .rxLen => 0x040
  | .rxType => 0x044
  | .rxCrc => 0x048
  | .calcCrc => 0x04C
  | .infoBuf => 0x050
  | .infoNdesc => 0x054
  | .desc i k => descOffset i k

/-- R31's offset of a register WR_CRC_CONFIG writes. -/
def CrcReg.offset : CrcReg → Addr
  | .poly => 0x01C
  | .init => 0x020
  | .xorout => 0x024
  | .cfg => 0x028

/-- R31's offset of a register WR_OPERAND writes. -/
def OperandReg.offset : OperandReg → Addr
  | .maxSize => 0x00C
  | .frameBase => 0x010
  | .blkStart => 0x014
  | .blkLen => 0x018
  | .desc i k => descOffset i k

/-- R31's offset of a read-only register. -/
def RoReg.offset : RoReg → Addr
  | .crcResult => 0x030
  | .rxFlag => 0x03C
  | .rxLen => 0x040
  | .rxType => 0x044
  | .rxCrc => 0x048
  | .calcCrc => 0x04C
  | .infoBuf => 0x050
  | .infoNdesc => 0x054

/-- The port's `size` signal for a width (R81). -/
def AccessSize.field : AccessSize → BitVec 2
  | .byte => 0
  | .half => 1
  | .word => 2

/-- The CFE offset of frame-buffer offset `o` (R80: `a = 0x10000 + o`). -/
def windowAddr (o : BitVec 16) : Addr := BitVec.ofNat 17 (0x10000 + o.toNat)

/-- `W4 off data` (R120). -/
def regWrite (a : Addr) (w : Word) : Raw := .bus { we := true, addr := a, size := 2, wdata := w }

/-- `R4 off` (R120); a read's `wdata` is 0. -/
def regRead (a : Addr) : Raw := .bus { we := false, addr := a, size := 2, wdata := 0 }

/-- The encoding of an operation: the command word of R110, or the transaction of R116 and R120. -/
def encode : Instr → Raw
  | .nop => .command (commandWord 0x0 false 0)
  | .crcInit => .command (commandWord 0x1 false 0)
  | .crcBlock seed => .command (commandWord 0x2 seed 0)
  | .encodeFrame d => .command (commandWord 0x3 false d)
  | .decodeFrame d => .command (commandWord 0x4 false d)
  | .reserved5 => .command (commandWord 0x5 false 0)
  | .reserved6 => .command (commandWord 0x6 false 0)
  | .reserved7 => .command (commandWord 0x7 false 0)
  | .reserved8 => .command (commandWord 0x8 false 0)
  | .reserved9 => .command (commandWord 0x9 false 0)
  | .reservedA => .command (commandWord 0xA false 0)
  | .reservedB => .command (commandWord 0xB false 0)
  | .reservedC => .command (commandWord 0xC false 0)
  | .reservedD => .command (commandWord 0xD false 0)
  | .reservedE => .command (commandWord 0xE false 0)
  | .reservedF => .command (commandWord 0xF false 0)
  | .wrCrcData8 w => regWrite 0x034 w
  | .wrCrcData32 w => regWrite 0x038 w
  | .wrCrcState w => regWrite 0x02C w
  | .rdCrcResult => regRead 0x030
  | .rdCrcState => regRead 0x02C
  | .wrCrcConfig r w => regWrite r.offset w
  | .wrCmd w => regWrite 0x008 w
  | .wrCtrl w => regWrite 0x000 w
  | .wrStatus w => regWrite 0x004 w
  | .rdReg r => regRead r.offset
  | .wrOperand r w => regWrite r.offset w
  | .wrRo r w => regWrite r.offset w
  | .bufWr sz o w => .bus { we := true, addr := windowAddr o, size := sz.field, wdata := w }
  | .bufRd sz o => .bus { we := false, addr := windowAddr o, size := sz.field, wdata := 0 }

/-! ### The opcode table's words -/

/-- The direction the harness gives a table word of a bus row. The table's words hold the 17 address bits alone, so a
BUSW row and the BUSR row of the same offset have the SAME word: CRC_RESULT and the INFO registers are taken as reads,
every other offset as a write (DESIGN CHOICE, log entry 4). -/
def tableWordWrites (a : Addr) : Bool := !(a == 0x030 || a == 0x050 || a == 0x054)

/-- The encoded operation that a word of spec/opcode_table.json stands for. A bus row has 17 bits (24 in whole bytes);
its other signals are what the table's rows say: `size` = 4 bytes for a register, and with no bit given 1 byte for the
window. A command row is the command word itself, its upper bits 0 (log entry 4). -/
def tableRaw (nbits w : Nat) : Raw :=
  if 8 < nbits ∧ nbits < 32 then
    let a : Addr := BitVec.ofNat 17 w
    if a.toNat < 0x10000 then .bus { we := tableWordWrites a, addr := a, size := 2, wdata := 0 }
    else .bus { we := true, addr := a, size := 0, wdata := 0 }
  else .command (BitVec.ofNat 32 w)

/-- The instruction the decoder reads from a table word, under the spec's default parameters. -/
def decodeTableWord (nbits w : Nat) : Option Instr :=
  match decode Params.default (tableRaw nbits w) with
  | .ok i => some i
  | .error _ => none

end Sys2Proof
end

