-- ==== Sys2Proof/Machine/State.lean ====
section
/-! DEFINITION. The state of the CFE as plain data (spec 10_state.md R30): the registers of R31, the descriptor table of
R53, the frame buffer of R59 and the in-flight command of R60; beside them the model's own fields, each marked. -/

namespace Sys2Proof.Machine

/-- Why the machine stops (60_exceptions.md R254: "a model must fault rather than pick a value"). -/
inductive Fault where
  /-- Raised by the decoder of a host transaction (R83, R84) and by an operation whose operand does not exist. The
  hardware answers with `err`, changes nothing and goes on. SAFE: the model stops where the hardware goes on (log 7). -/
  | busError (addr : Addr)
  /-- Raised by BUF_WR and BUF_RD while a command is in flight (R94). The hardware performs the access with an
  unspecified outcome. SAFE (log 8). -/
  | bufferRace (addr : Addr)
  /-- Raised by BUF_RD, CRC_BLOCK, ENCODE and DECODE when they read a byte never written since power-on (R63). The
  hardware returns some value. SAFE (log 9). -/
  | uninitRead (o : Nat)
deriving DecidableEq, Repr

/-- Why an instruction has no meaning in the model. -/
inductive Refusal where
  /-- Raised by an arm of exec whose instruction has no meaning yet. SAFE: nothing is claimed. No arm uses it. -/
  | notModelled (mnemonic : String)
deriving DecidableEq, Repr

/-- STATUS.RESULT's codes 0 to 5 (R251). The reserved codes 6 to 15 are never produced (93_implementation_defined.md U7). -/
inductive ResultCode where
  | ok | bufferTooSmall | checksumMismatch | illegalCmd | descError | rangeError
deriving DecidableEq, Repr

/-- The stored fields of STATUS (R35). BUSY is not stored: it reads as `pending != none`. -/
structure Status where
  done : Bool
  err : Bool
  overrun : Bool
  flagOk : Bool
  typeOk : Bool
  result : ResultCode
deriving DecidableEq, Repr

/-- One entry of the descriptor table, its four 32-bit words (R53 to R57). -/
structure Desc where
  hdr : Word
  size : Word
  crcStart : Word
  crcLen : Word
deriving DecidableEq, Repr

/-- A descriptor entry after reset: all zero, hence not valid (R53). -/
def Desc.zero : Desc := { hdr := 0, size := 0, crcStart := 0, crcLen := 0 }

/-- The frame buffer: the written bytes by frame-buffer offset. An offset that is not listed is unwritten (R63). -/
abbrev Memory := List Host.Cell

/-- One turn of an agent, or of the reset input (R82, R90, R290). -/
inductive Event where
  /-- The host presents a transaction on the slave port. -/
  | bus (t : BusTxn)
  /-- The engine may take its completion step. -/
  | engine
  /-- `rst_n` is asserted and released. -/
  | powerOn
deriving DecidableEq, Repr

/-- The machine's state. -/
structure State where
  /-- CTRL.IE (R34). -/
  ie : Bool
  /-- STATUS (R35). -/
  status : Status
  /-- MAX_SIZE (R37). -/
  maxSize : Word
  /-- FRAME_BASE (R38). -/
  frameBase : Word
  /-- BLK_START (R39). -/
  blkStart : Word
  /-- BLK_LEN (R40). -/
  blkLen : Word
  /-- CRC_POLY (R41). -/
  crcPoly : Word
  /-- CRC_INIT (R42). -/
  crcInit : Word
  /-- CRC_XOROUT (R43). -/
  crcXorout : Word
  /-- CRC_CFG (R44); its reserved bits are 0. -/
  crcCfg : Word
  /-- CRC_STATE (R45). -/
  crcState : Word
  /-- RX_FLAG.FLAG (R49). -/
  rxFlag : Byte
  /-- RX_LEN.LEN (R49). -/
  rxLen : BitVec 16
  /-- RX_TYPE.TYPE (R49). -/
  rxType : Byte
  /-- RX_CRC (R50). -/
  rxCrc : Word
  /-- CALC_CRC (R50). -/
  calcCrc : Word
  /-- The descriptor table, entry i at index i (R53). -/
  descs : List Desc
  /-- The frame buffer (R59, R63). -/
  buf : Memory
  /-- The in-flight command word (R60). -/
  pending : Option Word
  /-- The model's own: the parameters BUF_BYTES and NDESC, changed by no step (R8, log entry 1). -/
  params : Params
  /-- The model's own: the turns still to be taken, oldest first (R90, R257, log entry 3). -/
  events : List Event
  /-- The model's own: the port's `rdata` of the last read transaction (R81, log entry 5). -/
  rdata : Word
  /-- The model's own: how many free values have been drawn (R239, log entry 6). -/
  draws : Nat
deriving DecidableEq, Repr

/-- R35: STATUS resets to 0, which is RESULT = OK with every flag clear. -/
def Status.reset : Status :=
  { done := false, err := false, overrun := false, flagOk := false, typeOk := false, result := .ok }

/-- The machine right after power-on reset (70_reset_and_hazards.md R290, R291, and R31's Reset column), under the
spec's default parameters (log entry 1), with no turn waiting (log entry 3), `rdata` 0 (log entry 5) and no free value
drawn (log entry 6). -/
def State.reset : State :=
  { ie := false
    status := Status.reset
    maxSize := 0
    frameBase := 0
    blkStart := 0
    blkLen := 0
    crcPoly := 0x04C11DB7
    crcInit := 0xFFFFFFFF
    crcXorout := 0xFFFFFFFF
    crcCfg := 0x00000003
    crcState := 0xFFFFFFFF
    rxFlag := 0
    rxLen := 0
    rxType := 0
    rxCrc := 0
    calcCrc := 0
    descs := List.replicate Params.default.ndesc Desc.zero
    buf := []
    pending := none
    params := Params.default
    events := []
    rdata := 0
    draws := 0 }

end Sys2Proof.Machine
end

