-- ==== Sys2Proof/Machine/Operands.lean ====
section
/-! DEFINITION. Operand forms: the fields of registers and descriptors, the descriptor a command names, byte lanes of a
word, and the frame's header and checksum bytes (spec 10_state.md R44, R54; 20_memory.md R85; 41_frame_codec.md R182 to
R186). -/

namespace Sys2Proof.Machine

/-! ### Register fields -/

/-- CRC_CFG.REFIN, bit 0 (R44). -/
def State.refin (s : State) : Bool := s.crcCfg.getLsbD 0

/-- CRC_CFG.REFOUT, bit 1 (R44). -/
def State.refout (s : State) : Bool := s.crcCfg.getLsbD 1

/-- The named bits of CRC_CFG (R165: `fieldmask` 0x00000003). -/
def crcCfgMask : Word := 0x00000003

/-- The named bits of DESC[i].HDR (42_control.md R239: `w & 0x81FFFFFF`). -/
def hdrMask : Word := 0x81FFFFFF

/-- HDR.TYPE, bits 7:0 (R54). -/
def Desc.type (e : Desc) : Byte := e.hdr.extractLsb' 0 8

/-- HDR.LEN_HI, bits 15:8 (R54). -/
def Desc.lenHi (e : Desc) : Byte := e.hdr.extractLsb' 8 8

/-- HDR.LEN_LO, bits 23:16 (R54). -/
def Desc.lenLo (e : Desc) : Byte := e.hdr.extractLsb' 16 8

/-- HDR.ORDER, bit 24 (R54). -/
def Desc.order (e : Desc) : Bool := e.hdr.getLsbD 24

/-- HDR.VALID, bit 31 (R54). -/
def Desc.valid (e : Desc) : Bool := e.hdr.getLsbD 31

/-- Word k of an entry. -/
def Desc.word (e : Desc) : DescWord → Word
  | .hdr => e.hdr
  | .size => e.size
  | .crcStart => e.crcStart
  | .crcLen => e.crcLen

/-- R239: HDR stores `w & 0x81FFFFFF`; the other words store all 32 bits. -/
def Desc.setWord (e : Desc) (k : DescWord) (w : Word) : Desc :=
  match k with
  | .hdr => { e with hdr := w &&& hdrMask }
  | .size => { e with size := w }
  | .crcStart => { e with crcStart := w }
  | .crcLen => { e with crcLen := w }

/-- `DESC[d]`. An index at or above NDESC names no entry; desc_ok refuses it before any field is used (R58). -/
def State.desc (s : State) (d : BitVec 8) : Desc := s.descs.getD d.toNat Desc.zero

/-! ### Bytes of a word -/

/-- Byte lane k of a word, `w[8k+7:8k]` (R85). -/
def byteLane (w : Word) (k : Nat) : Byte := w.extractLsb' (8 * k) 8

/-- `wdata[8n-1:0]` as n bytes, lowest first (R84, R85). -/
def leBytes (n : Nat) (w : Word) : List Byte := (List.range n).map (byteLane w)

/-- The little-endian value of bytes, zero-extended to 32 bits (R11 MemRead, R84). -/
def leWord : List Byte → Word
  | [] => 0
  | b :: bs => (leWord bs <<< 8) ||| b.setWidth 32

/-! ### Bytes of a frame -/

/-- START_FLAG (R181): a constant of the hardware. -/
def startFlag : Byte := 0x7E

/-- R182: the canonical header `[0x7E, LEN_HI, LEN_LO, TYPE]`. -/
def hdrBytes (e : Desc) : List Byte := [startFlag, e.lenHi, e.lenLo, e.type]

/-- R185: the four checksum bytes at frame offsets N-4 to N-1; `order` false is little-endian, true is reversed. -/
def place (c : Word) (order : Bool) : List Byte :=
  if order then [byteLane c 3, byteLane c 2, byteLane c 1, byteLane c 0]
  else [byteLane c 0, byteLane c 1, byteLane c 2, byteLane c 3]

/-- R186: extraction, the inverse of placement, from the bytes at frame offsets N-4 to N-1. -/
def extract (b0 b1 b2 b3 : Byte) (order : Bool) : Word :=
  if order then b0 ++ b1 ++ b2 ++ b3 else b3 ++ b2 ++ b1 ++ b0

end Sys2Proof.Machine
end

