-- ==== Sys2Proof/Machine/Crc.lean ====
section
/-! DEFINITION. The CRC function (spec 40_crc_engine.md R140 to R144). -/

namespace Sys2Proof.Machine

/-- The five values every CRC computation uses (R140). -/
structure CrcConf where
  poly : Word
  init : Word
  xorout : Word
  refin : Bool
  refout : Bool
deriving DecidableEq, Repr

/-- R140: the parameters as the registers hold them at the moment of the computation. -/
def State.crcConf (s : State) : CrcConf :=
  { poly := s.crcPoly, init := s.crcInit, xorout := s.crcXorout, refin := s.refin, refout := s.refout }

/-- R141: `reflect_n(v)[k] = v[n-1-k]`. -/
def reflect {n : Nat} (v : BitVec n) : BitVec n := v.reverse

/-- One of R142's eight shifts. -/
def crcShift (poly reg : Word) : Word :=
  if reg.getLsbD 31 then (reg <<< 1) ^^^ poly else reg <<< 1

/-- k shifts. -/
def crcShifts (poly : Word) : Nat → Word → Word
  | 0, reg => reg
  | k + 1, reg => crcShifts poly k (crcShift poly reg)

/-- R142: the byte as it enters the register. -/
def CrcConf.inByte (c : CrcConf) (b : Byte) : Byte := if c.refin then reflect b else b

/-- R142: one byte into the register, most significant bit first. -/
def CrcConf.update (c : CrcConf) (reg : Word) (b : Byte) : Word :=
  crcShifts c.poly 8 (reg ^^^ ((c.inByte b).setWidth 32 <<< 24))

/-- A byte sequence into the register, first byte first (R144). -/
def CrcConf.run (c : CrcConf) (reg : Word) (bs : List Byte) : Word := bs.foldl c.update reg

/-- R143: the register turned into the checksum value. -/
def CrcConf.final (c : CrcConf) (reg : Word) : Word :=
  (if c.refout then reflect reg else reg) ^^^ c.xorout

/-- R144: the CRC of a byte sequence, of any length. -/
def CrcConf.crc (c : CrcConf) (bs : List Byte) : Word := c.final (c.run c.init bs)

end Sys2Proof.Machine
end

