-- ==== Sys2Proof/Machine/Flags.lean ====
section
/-! DEFINITION. Every flag computation: the STATUS and CTRL words, completion, write-1-to-clear, OVERRUN, and the irq
output (spec 10_state.md R34, R35, R62; 42_control.md R232, R233, R238; 60_exceptions.md R251, R255). -/

namespace Sys2Proof.Machine

/-- The 4-bit code of a result (R251). -/
def ResultCode.code : ResultCode → BitVec 4
  | .ok => 0
  | .bufferTooSmall => 1
  | .checksumMismatch => 2
  | .illegalCmd => 3
  | .descError => 4
  | .rangeError => 5

/-- STATUS.BUSY reads as `pending != none` (R35, R60). -/
def State.busy (s : State) : Bool := s.pending.isSome

/-- The value a read of STATUS returns (R35): RESULT 11:8, TYPE_OK 5, FLAG_OK 4, OVERRUN 3, ERR 2, DONE 1, BUSY 0, the
reserved bits 0. -/
def State.statusWord (s : State) : Word :=
  0#20 ++ s.status.result.code ++ 0#2 ++ BitVec.ofBool s.status.typeOk ++ BitVec.ofBool s.status.flagOk
    ++ BitVec.ofBool s.status.overrun ++ BitVec.ofBool s.status.err ++ BitVec.ofBool s.status.done
    ++ BitVec.ofBool s.busy

/-- The value a read of CTRL returns (R34): IE in bit 0; SRST and the reserved bits read 0. -/
def State.ctrlWord (s : State) : Word := 0#31 ++ BitVec.ofBool s.ie

/-- R62: the output `irq` equals IE & DONE at all times. -/
def State.irq (s : State) : Bool := s.ie && s.status.done

/-- R255: `irq` goes to the platform interrupt input IRQ_LINE. -/
def State.platformIrq (s : State) (line : Nat) : Bool := line == Config.irqLine && s.irq

/-- R233's effect of `complete(code)` on STATUS: RESULT is the code, DONE is set, a non-OK code sets ERR. -/
def Status.completed (st : Status) (code : ResultCode) : Status :=
  { st with result := code, done := true, err := st.err || decide (code ≠ .ok) }

/-- R238: a write of 1 to DONE (bit 1), ERR (bit 2) or OVERRUN (bit 3) clears it; the other fields are read-only. -/
def Status.writeOneToClear (st : Status) (w : Word) : Status :=
  { st with
    done := st.done && !w.getLsbD 1
    err := st.err && !w.getLsbD 2
    overrun := st.overrun && !w.getLsbD 3 }

/-- R232, R253: a dropped write sets OVERRUN. -/
def Status.withOverrun (st : Status) : Status := { st with overrun := true }

end Sys2Proof.Machine
end

