-- ==== Sys2Proof/Machine/Ops.lean ====
section
/-! DEFINITION. The shared operations over the frame buffer and the registers: reading and writing bytes, the write that
a busy engine drops, completion, the codec precheck, reset. The CFE has no trap entry and no return from one
(60_exceptions.md R258, R259): every abnormal outcome of a command is `complete(code)`. -/

namespace Sys2Proof.Machine

/-! ### The frame buffer -/

/-- The canonical form: offsets strictly rising. An unlisted byte is unwritten, so no entry can equal it. -/
abbrev Memory.wf (m : Memory) : Prop := m.Pairwise fun x y => x.1 < y.1

/-- The byte at offset `a`, none when it is unwritten (R63). -/
def Memory.read? : Memory → Nat → Option Byte
  | [], _ => none
  | (b, v) :: m, a => if a = b then some v else Memory.read? m a

/-- Write one byte, keeping the canonical form. -/
def Memory.write : Memory → Nat → Byte → Memory
  | [], a, v => [(a, v)]
  | (b, u) :: m, a, v =>
    if a < b then (a, v) :: (b, u) :: m
    else if a = b then (a, v) :: m
    else (b, u) :: Memory.write m a v

/-- Write consecutive bytes from offset `a` up (R11 MemWrite). -/
def Memory.writeBytes : Memory → Nat → List Byte → Memory
  | m, _, [] => m
  | m, a, v :: vs => Memory.writeBytes (m.write a v) (a + 1) vs

/-- Mark the n bytes from offset `a` up unwritten (R292). -/
def Memory.erase (m : Memory) (a n : Nat) : Memory := m.filter fun c => !(decide (a ≤ c.1) && decide (c.1 < a + n))

/-- Read n consecutive bytes from offset `a` up; the error is the lowest unwritten offset (R63, log entry 9). -/
def Memory.readBytes (m : Memory) : Nat → Nat → Except Nat (List Byte)
  | _, 0 => .ok []
  | a, n + 1 =>
    match m.read? a with
    | none => .error a
    | some v =>
      match m.readBytes (a + 1) n with
      | .error o => .error o
      | .ok vs => .ok (v :: vs)

/-! ### Writes while busy, and completion -/

/-- R232: while a command is in flight the write has no effect on its register and sets OVERRUN; otherwise it is done. -/
def State.writeUnlessBusy (s : State) (t : State) : State :=
  match s.pending with
  | some _ => { s with status := s.status.withOverrun }
  | none => t

/-- R233, `complete(code)`: the last action of every command. -/
def State.complete (s : State) (code : ResultCode) : State :=
  { s with status := s.status.completed code, pending := none }

/-- R239: a CRC_INIT or CRC_BLOCK is in flight. -/
def State.crcInFlight (s : State) : Bool :=
  match s.pending with
  | none => false
  | some w => cmdOp w == 0x1 || cmdOp w == 0x2

/-- R239, U3: a read of CRC_STATE or CRC_RESULT. Its value is `v`, or a fresh free value while a CRC_INIT or CRC_BLOCK
is in flight. Nothing but the port's read data, and the model's counter of free values, changes. -/
def State.readCrc (s : State) (v : Word) : State :=
  if s.crcInFlight then { s with rdata := Config.freeRead s.draws, draws := s.draws + 1 }
  else { s with rdata := v }

/-- R239, R31: the value a read of a mapped register returns. A write-only register reads 0 (R33). -/
def State.readReg (s : State) : ReadReg → Word
  | .ctrl => s.ctrlWord
  | .status => s.statusWord
  | .cmd => 0
  | .maxSize => s.maxSize
  | .frameBase => s.frameBase
  | .blkStart => s.blkStart
  | .blkLen => s.blkLen
  | .crcPoly => s.crcPoly
  | .crcInit => s.crcInit
  | .crcXorout => s.crcXorout
  | .crcCfg => s.crcCfg
  | .crcData8 => 0
  | .crcData32 => 0
  | .rxFlag => s.rxFlag.setWidth 32
  | .rxLen => s.rxLen.setWidth 32
  | .rxType => s.rxType.setWidth 32
  | .rxCrc => s.rxCrc
  | .calcCrc => s.calcCrc
  | .infoBuf => BitVec.ofNat 32 s.params.bufBytes
  | .infoNdesc => BitVec.ofNat 32 s.params.ndesc
  | .desc i k => (s.desc i).word k

/-- R239: the state after an operand register takes `w`. -/
def State.setOperand (s : State) (r : OperandReg) (w : Word) : State :=
  match r with
  | .maxSize => { s with maxSize := w }
  | .frameBase => { s with frameBase := w }
  | .blkStart => { s with blkStart := w }
  | .blkLen => { s with blkLen := w }
  | .desc i k => { s with descs := s.descs.set i.toNat ((s.desc i).setWord k w) }

/-- R165: the state after a CRC parameter register takes `w & fieldmask`. -/
def State.setCrcReg (s : State) (r : CrcReg) (w : Word) : State :=
  match r with
  | .poly => { s with crcPoly := w }
  | .init => { s with crcInit := w }
  | .xorout => { s with crcXorout := w }
  | .cfg => { s with crcCfg := w &&& crcCfgMask }

/-! ### The codec's checks -/

/-- R58, `desc_ok(d)`; the sum does not wrap (R10). -/
abbrev State.descOk (s : State) (d : BitVec 8) : Prop :=
  d.toNat < s.params.ndesc ∧ (s.desc d).valid = true ∧ 8 ≤ (s.desc d).size.toNat ∧
    (s.desc d).crcStart.toNat + (s.desc d).crcLen.toNat ≤ (s.desc d).size.toNat - 4

/-- R188, `codec_check(d)`: the first check that fails gives the code. -/
def State.codecCheck (s : State) (d : BitVec 8) : ResultCode :=
  if ¬ s.descOk d then .descError
  else if s.maxSize.toNat < (s.desc d).size.toNat then .bufferTooSmall
  else if s.frameBase.toNat + (s.desc d).size.toNat > s.params.bufBytes then .rangeError
  else .ok

/-! ### Reset -/

/-- R290: every register, descriptor word and `pending` at its power-on value. The frame buffer is left to the caller;
the model's own fields stay. -/
def State.resetRegisters (s : State) : State :=
  { State.reset with
    descs := List.replicate s.params.ndesc Desc.zero
    buf := s.buf
    params := s.params
    events := s.events
    rdata := s.rdata
    draws := s.draws }

/-- R290: power-on reset also leaves every frame-buffer byte unwritten. -/
def State.powerOnReset (s : State) : State := { s.resetRegisters with buf := [] }

/-- R292: what a soft reset leaves of the buffer. An aborted ENCODE whose precheck would pass leaves its header and
checksum bytes unspecified, hence unwritten. -/
def State.bufferAfterAbort (s : State) : Memory :=
  match s.pending with
  | none => s.buf
  | some w =>
    if cmdOp w = 0x3 ∧ s.codecCheck (cmdDesc w) = .ok then
      (s.buf.erase s.frameBase.toNat 4).erase
        (s.frameBase.toNat + (s.desc (cmdDesc w)).size.toNat - 4) 4
    else s.buf

/-- R292: the soft reset. -/
def State.softReset (s : State) : State := { s.resetRegisters with buf := s.bufferAfterAbort }

/-! ### The platform's view -/

/-- R80, R96: the host address of CFE offset `a` is `BLOCK_BASE + a`. -/
def hostAddress (a : Addr) : Nat := Config.blockBase + a.toNat

end Sys2Proof.Machine
end

