-- ==== Sys2Proof/Machine/Codec.lean ====
section
/-! DEFINITION. The frame codec: ENCODE and DECODE (spec 41_frame_codec.md R187, R190, R195, R200). -/

namespace Sys2Proof.Machine

open Host (Outcome)

/-- The buffer offset of the first checksum byte, `base + N - 4` (R180). -/
def State.checksumAt (s : State) (d : BitVec 8) : Nat :=
  s.frameBase.toNat + (s.desc d).size.toNat - 4

/-- The bytes of the checksummed range `[base+S, base+S+C)` in the buffer `m` (R187). -/
def State.rangeBytes (s : State) (m : Memory) (d : BitVec 8) : Except Nat (List Byte) :=
  m.readBytes (s.frameBase.toNat + (s.desc d).crcStart.toNat) (s.desc d).crcLen.toNat

/-- R190's last steps: place the checksum `c`, record it, complete. -/
def State.encoded (s : State) (m : Memory) (d : BitVec 8) (c : Word) : State :=
  { s with
    buf := m.writeBytes (s.checksumAt d) (place c (s.desc d).order)
    calcCrc := c }.complete .ok

/-- ENCODE (R190): the header is written first, so the range is read over the just-written bytes. -/
def execEncodeFrame (d : BitVec 8) (s : State) : Outcome State Fault Refusal :=
  match s.codecCheck d with
  | .ok =>
    let m := s.buf.writeBytes s.frameBase.toNat (hdrBytes (s.desc d))
    match s.rangeBytes m d with
    | .error o => .fault (.uninitRead o)
    | .ok bs => .next (s.encoded m d (s.crcConf.crc bs))
  | code => .next (s.complete code)

/-- R200, `decode_reject(code)`. -/
def State.decodeReject (s : State) (code : ResultCode) : State :=
  { s with
    rxFlag := 0
    rxLen := 0
    rxType := 0
    rxCrc := 0
    calcCrc := 0
    status := { s.status with flagOk := false, typeOk := false } }.complete code

/-- What a DECODE reads of a frame, in R195's order: bytes 0 to 3, the checksummed range, the checksum bytes. -/
structure ParsedFrame where
  flag : Byte
  lenHi : Byte
  lenLo : Byte
  type : Byte
  range : List Byte
  sum0 : Byte
  sum1 : Byte
  sum2 : Byte
  sum3 : Byte
deriving DecidableEq, Repr

/-- Four consecutive bytes, lowest offset first, or the lowest unwritten offset among them. -/
def Memory.readFour (m : Memory) (a : Nat) : Except Nat (Byte × Byte × Byte × Byte) :=
  match m.read? a, m.read? (a + 1), m.read? (a + 2), m.read? (a + 3) with
  | some b0, some b1, some b2, some b3 => .ok (b0, b1, b2, b3)
  | none, _, _, _ => .error a
  | _, none, _, _ => .error (a + 1)
  | _, _, none, _ => .error (a + 2)
  | _, _, _, none => .error (a + 3)

/-- The header's four bytes, the range and the checksum's four bytes, or the first unwritten offset in that order. -/
def State.parseFrame (s : State) (d : BitVec 8) : Except Nat ParsedFrame :=
  match s.buf.readFour s.frameBase.toNat with
  | .error o => .error o
  | .ok (f, lh, ll, t) =>
    match s.rangeBytes s.buf d with
    | .error o => .error o
    | .ok bs =>
      match s.buf.readFour (s.checksumAt d) with
      | .error o => .error o
      | .ok (b0, b1, b2, b3) =>
        .ok { flag := f, lenHi := lh, lenLo := ll, type := t, range := bs,
              sum0 := b0, sum1 := b1, sum2 := b2, sum3 := b3 }

/-- R195, after the reads: the parser's registers, the two comparisons (R201), and the verdict by checksum alone. -/
def State.decoded (s : State) (d : BitVec 8) (f : ParsedFrame) : State :=
  let c := s.crcConf.crc f.range
  let t := extract f.sum0 f.sum1 f.sum2 f.sum3 (s.desc d).order
  { s with
    rxFlag := if c = t then f.flag else 0
    rxLen := f.lenHi ++ f.lenLo
    rxType := f.type
    rxCrc := t
    calcCrc := c
    status :=
      { s.status with
        flagOk := decide (f.flag = startFlag)
        typeOk := decide (f.type = (s.desc d).type) } }.complete
    (if c = t then .ok else .checksumMismatch)

/-- DECODE (R195, R200). -/
def execDecodeFrame (d : BitVec 8) (s : State) : Outcome State Fault Refusal :=
  match s.codecCheck d with
  | .ok =>
    match s.parseFrame d with
    | .error o => .fault (.uninitRead o)
    | .ok f => .next (s.decoded d f)
  | code => .next (s.decodeReject code)

end Sys2Proof.Machine
end

