-- ==== Sys2Proof/Machine/Commands.lean ====
section
/-! DEFINITION. The commands that do not touch a frame: NOP, CRC_INIT, CRC_BLOCK and the reserved opcodes (spec
42_control.md R235, R236; 40_crc_engine.md R150, R152). Each is what the engine's completion step does (R233). -/

namespace Sys2Proof.Machine

open Host (Outcome)

/-- NOP (R235). -/
def execNop (s : State) : Outcome State Fault Refusal := .next (s.complete .ok)

/-- CRC_INIT (R150). -/
def execCrcInit (s : State) : Outcome State Fault Refusal :=
  .next ({ s with crcState := s.crcInit }.complete .ok)

/-- CRC_BLOCK (R152). -/
def execCrcBlock (seed : Bool) (s : State) : Outcome State Fault Refusal :=
  if s.blkStart.toNat + s.blkLen.toNat > s.params.bufBytes then .next (s.complete .rangeError)
  else
    match s.buf.readBytes s.blkStart.toNat s.blkLen.toNat with
    | .error o => .fault (.uninitRead o)
    | .ok bs =>
      let r := if seed then s.crcInit else s.crcState
      .next ({ s with crcState := s.crcConf.run r bs }.complete .ok)

/-- R236: a reserved opcode completes with ILLEGAL_CMD and changes nothing else. -/
def completeIllegal (s : State) : Outcome State Fault Refusal := .next (s.complete .illegalCmd)

/-- OP = 0x5 (R236). -/
def execReserved5 (s : State) : Outcome State Fault Refusal := completeIllegal s

/-- OP = 0x6 (R236). -/
def execReserved6 (s : State) : Outcome State Fault Refusal := completeIllegal s

/-- OP = 0x7 (R236). -/
def execReserved7 (s : State) : Outcome State Fault Refusal := completeIllegal s

/-- OP = 0x8 (R236). -/
def execReserved8 (s : State) : Outcome State Fault Refusal := completeIllegal s

/-- OP = 0x9 (R236). -/
def execReserved9 (s : State) : Outcome State Fault Refusal := completeIllegal s

/-- OP = 0xA (R236). -/
def execReservedA (s : State) : Outcome State Fault Refusal := completeIllegal s

/-- OP = 0xB (R236). -/
def execReservedB (s : State) : Outcome State Fault Refusal := completeIllegal s

/-- OP = 0xC (R236). -/
def execReservedC (s : State) : Outcome State Fault Refusal := completeIllegal s

/-- OP = 0xD (R236). -/
def execReservedD (s : State) : Outcome State Fault Refusal := completeIllegal s

/-- OP = 0xE (R236). -/
def execReservedE (s : State) : Outcome State Fault Refusal := completeIllegal s

/-- OP = 0xF (R236). -/
def execReservedF (s : State) : Outcome State Fault Refusal := completeIllegal s

end Sys2Proof.Machine
end

