-- ==== Sys2Proof/Machine/Control.lean ====
section
/-! DEFINITION. Command issue, control and status, register reads and operand writes (spec 42_control.md R230 to R240). -/

namespace Sys2Proof.Machine

open Host (Outcome)

/-- WR_CMD (R230, R232): issue. Nothing is checked; a write while busy is dropped. -/
def execWrCmd (w : Word) (s : State) : Outcome State Fault Refusal :=
  .next (s.writeUnlessBusy { s with pending := some w })

/-- WR_CTRL (R237): never dropped. With SRST = 1 it is a soft reset, and bit 0 is not stored. -/
def execWrCtrl (w : Word) (s : State) : Outcome State Fault Refusal :=
  .next (if w.getLsbD 1 then s.softReset else { s with ie := w.getLsbD 0 })

/-- WR_STATUS (R238): never dropped. -/
def execWrStatus (w : Word) (s : State) : Outcome State Fault Refusal :=
  .next { s with status := s.status.writeOneToClear w }

/-- RD_REG (R239). An operand that names no descriptor entry is a bus error (R83; log entry 17). -/
def execRdReg (r : ReadReg) (s : State) : Outcome State Fault Refusal :=
  if r.wf s.params then .next { s with rdata := s.readReg r } else .fault (.busError r.offset)

/-- WR_OPERAND (R239, R232). An operand that names no descriptor entry is a bus error, checked before the drop (R256). -/
def execWrOperand (r : OperandReg) (w : Word) (s : State) : Outcome State Fault Refusal :=
  if r.wf s.params then .next (s.writeUnlessBusy (s.setOperand r w)) else .fault (.busError r.offset)

/-- WR_RO (R240): completes with no effect, busy or not. The register named and the data do not matter. -/
def execWrRo (_r : RoReg) (_w : Word) (s : State) : Outcome State Fault Refusal := .next s

end Sys2Proof.Machine
end

