-- ==== Sys2Proof/Machine/Stream.lean ====
section
/-! DEFINITION. The CRC engine's register operations: the streaming writes, the direct load, the two reads and the CRC
parameters (spec 40_crc_engine.md R155 to R165). Each takes effect within its own transaction (R300). -/

namespace Sys2Proof.Machine

open Host (Outcome)

/-- WR_CRC_DATA8 (R155): `wdata[31:8]` is ignored. -/
def execWrCrcData8 (w : Word) (s : State) : Outcome State Fault Refusal :=
  .next (s.writeUnlessBusy { s with crcState := s.crcConf.update s.crcState (byteLane w 0) })

/-- WR_CRC_DATA32 (R157): four bytes, low byte first, as one step. -/
def execWrCrcData32 (w : Word) (s : State) : Outcome State Fault Refusal :=
  .next (s.writeUnlessBusy { s with crcState := s.crcConf.run s.crcState (leBytes 4 w) })

/-- WR_CRC_STATE (R159): the raw value. -/
def execWrCrcState (w : Word) (s : State) : Outcome State Fault Refusal :=
  .next (s.writeUnlessBusy { s with crcState := w })

/-- RD_CRC_RESULT (R161, R239). -/
def execRdCrcResult (s : State) : Outcome State Fault Refusal :=
  .next (s.readCrc (s.crcConf.final s.crcState))

/-- RD_CRC_STATE (R163, R239). -/
def execRdCrcState (s : State) : Outcome State Fault Refusal := .next (s.readCrc s.crcState)

/-- WR_CRC_CONFIG (R165): CRC_STATE does not change. -/
def execWrCrcConfig (r : CrcReg) (w : Word) (s : State) : Outcome State Fault Refusal :=
  .next (s.writeUnlessBusy (s.setCrcReg r w))

end Sys2Proof.Machine
end

