-- ==== Sys2Proof/Machine/Window.lean ====
section
/-! DEFINITION. The buffer window (spec 20_memory.md R84, R85, R94). -/

namespace Sys2Proof.Machine

open Host (Outcome)

/-- R84's checks of a window access, in the rule's order: bus errors (R256), then the race of R94. -/
def State.windowFault (s : State) (sz : AccessSize) (o : BitVec 16) : Option Fault :=
  if ¬ inWindow s.params sz o then some (.busError (windowAddr o))
  else if s.busy then some (.bufferRace (windowAddr o))
  else none

/-- BUF_WR (R84): `MemWrite(o, n, wdata[8n-1:0])`. -/
def execBufWr (sz : AccessSize) (o : BitVec 16) (w : Word) (s : State) : Outcome State Fault Refusal :=
  match s.windowFault sz o with
  | some f => .fault f
  | none => .next { s with buf := s.buf.writeBytes o.toNat (leBytes sz.bytes w) }

/-- BUF_RD (R84): `rdata <- zext_32(MemRead(o, n))`. -/
def execBufRd (sz : AccessSize) (o : BitVec 16) (s : State) : Outcome State Fault Refusal :=
  match s.windowFault sz o with
  | some f => .fault f
  | none =>
    match s.buf.readBytes o.toNat sz.bytes with
    | .error a => .fault (.uninitRead a)
    | .ok bs => .next { s with rdata := leWord bs }

end Sys2Proof.Machine
end

