-- ==== Sys2Proof/Machine/Dispatch.lean ====
section
/-! DEFINITION. One arm per constructor of Instr, each a direct call of its meaning. -/

namespace Sys2Proof.Machine

def exec (i : Instr) (s : State) : Host.Outcome State Fault Refusal :=
  match i with
  -- the engine's commands (30_encoding.md R111)
  | .nop => Sys2Proof.Machine.execNop s
  | .crcInit => Sys2Proof.Machine.execCrcInit s
  | .crcBlock seed => Sys2Proof.Machine.execCrcBlock seed s
  | .encodeFrame d => Sys2Proof.Machine.execEncodeFrame d s
  | .decodeFrame d => Sys2Proof.Machine.execDecodeFrame d s
  | .reserved5 => Sys2Proof.Machine.execReserved5 s
  | .reserved6 => Sys2Proof.Machine.execReserved6 s
  | .reserved7 => Sys2Proof.Machine.execReserved7 s
  | .reserved8 => Sys2Proof.Machine.execReserved8 s
  | .reserved9 => Sys2Proof.Machine.execReserved9 s
  | .reservedA => Sys2Proof.Machine.execReservedA s
  | .reservedB => Sys2Proof.Machine.execReservedB s
  | .reservedC => Sys2Proof.Machine.execReservedC s
  | .reservedD => Sys2Proof.Machine.execReservedD s
  | .reservedE => Sys2Proof.Machine.execReservedE s
  | .reservedF => Sys2Proof.Machine.execReservedF s
  -- the host's transactions (30_encoding.md R116)
  | .wrCrcData8 w => Sys2Proof.Machine.execWrCrcData8 w s
  | .wrCrcData32 w => Sys2Proof.Machine.execWrCrcData32 w s
  | .wrCrcState w => Sys2Proof.Machine.execWrCrcState w s
  | .rdCrcResult => Sys2Proof.Machine.execRdCrcResult s
  | .rdCrcState => Sys2Proof.Machine.execRdCrcState s
  | .wrCrcConfig r w => Sys2Proof.Machine.execWrCrcConfig r w s
  | .wrCmd w => Sys2Proof.Machine.execWrCmd w s
  | .wrCtrl w => Sys2Proof.Machine.execWrCtrl w s
  | .wrStatus w => Sys2Proof.Machine.execWrStatus w s
  | .rdReg r => Sys2Proof.Machine.execRdReg r s
  | .wrOperand r w => Sys2Proof.Machine.execWrOperand r w s
  | .wrRo r w => Sys2Proof.Machine.execWrRo r w s
  | .bufWr sz o w => Sys2Proof.Machine.execBufWr sz o w s
  | .bufRd sz o => Sys2Proof.Machine.execBufRd sz o s

end Sys2Proof.Machine
end

