-- ==== Sys2Proof/Machine/Turn.lean ====
section
/-! DEFINITION. Whose turn it is, and what the turn does (spec 20_memory.md R82, R90; 42_control.md R233, R241;
60_exceptions.md R257; 70_reset_and_hazards.md R290). The turns stand in `State.events` as plain data, so every
interleaving of host transactions and completions is some list of events (log entry 3). -/

namespace Sys2Proof.Machine

open Host (Outcome)

/-- What a turn runs. -/
inductive Turn where
  /-- An encoded operation: the pending command, or the host's transaction. -/
  | run (r : Raw)
  /-- A power-on reset. -/
  | powerOn
  /-- Nothing: the engine's turn with no command in flight, or no turn waiting and none in flight. -/
  | idle
deriving DecidableEq, Repr

/-- R233: the engine's step is enabled exactly when a command is in flight. -/
def engineTurn (s : State) : Turn :=
  match s.pending with
  | some w => .run (.command w)
  | none => .idle

/-- The next turn, and the state with that turn taken off the list. When no turn is left the engine moves, so a command
in flight is always completed (R241, log entry 12). -/
def fetch (s : State) : Turn × State :=
  match s.events with
  | [] => (engineTurn s, s)
  | .engine :: es => (engineTurn s, { s with events := es })
  | .bus t :: es => (.run (.bus t), { s with events := es })
  | .powerOn :: es => (.powerOn, { s with events := es })

/-- Decode and execute; a rejected transaction is the bus error of R252. -/
def runRaw (r : Raw) (s : State) : Outcome State Fault Refusal :=
  match decode s.params r with
  | .ok i => exec i s
  | .error e => .fault (.busError e.addr)

/-- One turn. -/
def takeTurn (s : State) : Outcome State Fault Refusal :=
  match fetch s with
  | (.run r, s1) => runRaw r s1
  | (.powerOn, s1) => .next s1.powerOnReset
  | (.idle, s1) => .next s1

/-- Place an encoded operation where the next turn takes it: a command in `pending` with the engine's turn next, a
transaction as the host's next turn (log entry 4). -/
def State.placeRaw (s : State) : Raw → State
  | .command w => { s with pending := some w, events := .engine :: s.events }
  | .bus t => { s with events := .bus t :: s.events }

end Sys2Proof.Machine
end

