-- ==== Sys2Proof/Safety.lean ====
section
/-! DEFINITION. What counts as a legal state, a passing precheck, a lost byte, a safe turn: the terms the statements use,
each written from the spec's own words and not from the machine's definitions. -/

namespace Sys2Proof.Machine

/-- The invariant of the CFE: what every reachable state keeps.
The parameters are legal (R8); the descriptor table has NDESC entries (R53); the reserved bits of CRC_CFG and of every
descriptor header are 0 (R32, R44, R54); the frame buffer is in canonical form and lists no offset at or beyond BUF_BYTES
(R59). -/
structure State.Inv (s : State) : Prop where
  params_legal : s.params.legal
  descs_length : s.descs.length = s.params.ndesc
  hdr_reserved_zero : ∀ e ∈ s.descs, e.hdr &&& ~~~hdrMask = 0
  cfg_reserved_zero : s.crcCfg &&& ~~~crcCfgMask = 0
  buf_canonical : s.buf.wf
  buf_in_range : ∀ c ∈ s.buf, c.1 < s.params.bufBytes

/-- The Reset column of 10_state.md R31, every descriptor word 0, and no command in flight (R290). -/
structure State.AtReset (t : State) : Prop where
  ctrl : t.ie = false
  done : t.status.done = false
  err : t.status.err = false
  overrun : t.status.overrun = false
  flagOk : t.status.flagOk = false
  typeOk : t.status.typeOk = false
  result : t.status.result = .ok
  maxSize : t.maxSize = 0x00000000
  frameBase : t.frameBase = 0x00000000
  blkStart : t.blkStart = 0x00000000
  blkLen : t.blkLen = 0x00000000
  crcPoly : t.crcPoly = 0x04C11DB7
  crcInit : t.crcInit = 0xFFFFFFFF
  crcXorout : t.crcXorout = 0xFFFFFFFF
  crcCfg : t.crcCfg = 0x00000003
  crcState : t.crcState = 0xFFFFFFFF
  rxFlag : t.rxFlag = 0
  rxLen : t.rxLen = 0
  rxType : t.rxType = 0
  rxCrc : t.rxCrc = 0x00000000
  calcCrc : t.calcCrc = 0x00000000
  descs : t.descs = List.replicate t.params.ndesc { hdr := 0, size := 0, crcStart := 0, crcLen := 0 }
  pending : t.pending = none

/-- The model's own fields are alike. -/
abbrev State.sameOwn (s t : State) : Prop :=
  t.params = s.params ∧ t.events = s.events ∧ t.rdata = s.rdata ∧ t.draws = s.draws

/-- `n` bytes from offset `a` up have all been written (R63). -/
abbrev State.written (s : State) (a n : Nat) : Prop :=
  ∀ k < n, (s.buf.read? (a + k)).isSome = true

/-- The buffer offset of byte 0 of the frame, FRAME_BASE (R38). -/
abbrev State.base (s : State) : Nat := s.frameBase.toNat

/-- N, S and C of a descriptor (R180, R187). -/
abbrev Desc.N (e : Desc) : Nat := e.size.toNat
abbrev Desc.S (e : Desc) : Nat := e.crcStart.toNat
abbrev Desc.C (e : Desc) : Nat := e.crcLen.toNat

/-- `desc_ok(d)` in 10_state.md R58's own words: below NDESC, HDR bit 31 set, SIZE at least 8, and the unbounded sum
CRC_START + CRC_LEN at most SIZE - 4. The machine's own State.descOk is not used. -/
abbrev State.descriptorOk (s : State) (d : BitVec 8) : Prop :=
  d.toNat < s.params.ndesc ∧ (s.desc d).hdr.getLsbD 31 = true ∧ 8 ≤ (s.desc d).size.toNat ∧
    (s.desc d).crcStart.toNat + (s.desc d).crcLen.toNat ≤ (s.desc d).size.toNat - 4

/-- All of R188's checks pass, in R58's and R188's words. -/
abbrev State.precheckPasses (s : State) (d : BitVec 8) : Prop :=
  s.descriptorOk d ∧ (s.desc d).N ≤ s.maxSize.toNat ∧ s.base + (s.desc d).N ≤ s.params.bufBytes

/-- Offset `o` is one of the header bytes 0 to 3 or the checksum bytes N-4 to N-1 of the frame of descriptor `d`: the
bytes ENCODE writes (R59, R190). -/
abbrev State.encodeWrites (s : State) (d : BitVec 8) (o : Nat) : Prop :=
  (s.base ≤ o ∧ o < s.base + 4) ∨ (s.base + (s.desc d).N - 4 ≤ o ∧ o < s.base + (s.desc d).N)

/-- R292: offset `o` becomes unspecified when a soft reset aborts the command in flight. -/
abbrev State.abortLoses (s : State) (o : Nat) : Prop :=
  ∃ c, s.pending = some c ∧ c.extractLsb' 0 4 = 0x3#4 ∧ s.precheckPasses (c.extractLsb' 8 8) ∧
    s.encodeWrites (c.extractLsb' 8 8) o

/-- What a command reads beside the buffer: the registers of 42_control.md R232 and the descriptor table. -/
abbrev State.sameOperands (s t : State) : Prop :=
  t.maxSize = s.maxSize ∧ t.frameBase = s.frameBase ∧ t.blkStart = s.blkStart ∧ t.blkLen = s.blkLen ∧
    t.crcPoly = s.crcPoly ∧ t.crcInit = s.crcInit ∧ t.crcXorout = s.crcXorout ∧ t.crcCfg = s.crcCfg ∧
    t.crcState = s.crcState ∧ t.descs = s.descs ∧ t.params = s.params

/-- What an ENCODE and the DECODE of its frame must share (R203, R297). -/
abbrev State.sameCodec (s t : State) (d : BitVec 8) : Prop :=
  t.desc d = s.desc d ∧ t.params = s.params ∧ t.crcPoly = s.crcPoly ∧ t.crcInit = s.crcInit ∧
    t.crcXorout = s.crcXorout ∧ t.crcCfg = s.crcCfg ∧ t.frameBase = s.frameBase ∧ t.maxSize = s.maxSize

/-- A 4-byte host write and a 4-byte host read, as turns (R120: `W4 off data`, `R4 off`). -/
abbrev hostWrite (a : Addr) (w : Word) : Event := .bus { we := true, addr := a, size := 2, wdata := w }
abbrev hostRead (a : Addr) : Event := .bus { we := false, addr := a, size := 2, wdata := 0 }

/-- The next turn is the engine's: it stands first in the list, or no turn is left (log entry 12). -/
abbrev State.engineNext (s : State) : Prop := s.events = [] ∨ ∃ es, s.events = .engine :: es

/-- The transactions of 60_exceptions.md R252 (a) to (c), in the words of 20_memory.md R83 and R84. -/
abbrev busErrorTxn (p : Params) (t : BusTxn) : Prop :=
  (t.addr.toNat < 0x10000 ∧
    (t.size.toNat ≠ 2 ∨ t.addr.toNat % 4 ≠ 0 ∨
      ¬ (t.addr.toNat ≤ 0x054 ∨ (0x100 ≤ t.addr.toNat ∧ t.addr.toNat < 0x100 + 16 * p.ndesc)))) ∨
  (0x10000 ≤ t.addr.toNat ∧
    (t.size.toNat = 3 ∨ (t.addr.toNat - 0x10000) % 2 ^ t.size.toNat ≠ 0 ∨
      p.bufBytes < (t.addr.toNat - 0x10000) + 2 ^ t.size.toNat))

/-- Feed bytes one WR_CRC_DATA8 at a time (R146, R155). -/
def State.streamBytes (s : State) : List Byte → Host.Outcome State Fault Refusal
  | [] => .next s
  | b :: bs =>
    match exec (.wrCrcData8 (b.setWidth 32)) s with
    | .next t => t.streamBytes bs
    | .fault f => .fault f
    | .refused r => .refused r

/-- Flip bit k of byte i of a sequence (R168). -/
def flipBit (bs : List Byte) (i k : Nat) : List Byte := bs.modify i fun b => b ^^^ (1#8 <<< k)

end Sys2Proof.Machine
end

