-- ==== Sys2Proof/Certificates/Slice0/Obligations.lean ====
section
/-! DEFINITION. The statements for the provers. Each docstring names the rule of spec/ that the statement formalises. A
statement whose conclusion is an equation `exec i s = .next { s with … }` says the result, the completion and the frame at
once: every field not named, the frame buffer among them, is as before. -/

open Sys2Proof Sys2Proof.Machine

/-! ### Reset -/

/-- R31's Reset column read through the port, R290 and R291: what a register read returns at reset, nothing in flight, the
interrupt low, every frame-buffer byte unwritten. INFO_BUF and INFO_NDESC read the default parameters, which are the
model's choice (log entry 1). -/
def Obligations.ResetReadsTheResetColumn : Prop :=
  (∀ (r : ReadReg) (v : Word), (r, v) ∈ ([(.ctrl, 0), (.status, 0), (.cmd, 0), (.maxSize, 0), (.frameBase, 0), (.blkStart, 0), (.blkLen, 0),
      (.crcPoly, 0x04C11DB7), (.crcInit, 0xFFFFFFFF), (.crcXorout, 0xFFFFFFFF), (.crcCfg, 0x00000003), (.crcData8, 0),
      (.crcData32, 0), (.rxFlag, 0), (.rxLen, 0), (.rxType, 0), (.rxCrc, 0), (.calcCrc, 0), (.infoBuf, 1024),
      (.infoNdesc, 16)] : List (ReadReg × Word)) →
    exec (.rdReg r) State.reset = .next { State.reset with rdata := v }) ∧
  (∀ (i : BitVec 8) (k : DescWord), i.toNat < 16 → exec (.rdReg (.desc i k)) State.reset = .next { State.reset with rdata := 0 }) ∧
  exec .rdCrcState State.reset = .next { State.reset with rdata := 0xFFFFFFFF } ∧
  exec .rdCrcResult State.reset = .next { State.reset with rdata := 0 } ∧
  State.reset.pending = none ∧ State.reset.irq = false ∧ ∀ (o : Nat), State.reset.buf.read? o = none

/-- R290: a power-on reset, from every state, at any turn. -/
def Obligations.PowerOnResetRestoresEveryRegister : Prop :=
  ∀ (s : State) (es : List Event), s.events = .powerOn :: es →
    ∃ (t : State), step s = .next t ∧ t.AtReset ∧ State.sameOwn { s with events := es } t ∧ t.irq = false ∧
      ∀ (o : Nat), t.buf.read? o = none

/-- R237 and R292: WR_CTRL at any time, busy or not. With SRST = 1 a soft reset: every register at its reset value, nothing
pending, the buffer kept but for the eight bytes of an aborted ENCODE whose precheck would pass, which are unwritten. With
SRST = 0 only IE is stored. -/
def Obligations.CtrlWriteStoresEnableOrSoftResets : Prop :=
  (∀ (s : State) (w : Word), w.getLsbD 1 = false → exec (.wrCtrl w) s = .next { s with ie := w.getLsbD 0 }) ∧
  (∀ (s : State) (w : Word), w.getLsbD 1 = true →
    ∃ (t : State), exec (.wrCtrl w) s = .next t ∧ t.AtReset ∧ State.sameOwn s t ∧
      (∀ (o : Nat), s.abortLoses o → t.buf.read? o = none) ∧
      (∀ (o : Nat), ¬ s.abortLoses o → t.buf.read? o = s.buf.read? o))

/-- R292's last sentence and R233: a command in flight stays in flight until the engine completes it or a reset aborts it.
That the engine's turn is the first of the list, or an empty list, is the model's form (log entries 3 and 12). -/
def Obligations.PendingCommandEndsOnlyByCompletionOrReset : Prop :=
  ∀ (s t : State) (w : Word), s.pending = some w → step s = .next t →
    t.pending = some w ∨
    (t.pending = none ∧
      (s.engineNext ∨ (∃ (es : List Event), s.events = .powerOn :: es) ∨
        ∃ (v : Word) (es : List Event), v.getLsbD 1 = true ∧ s.events = hostWrite 0x000 v :: es))

/-- R60, R232: along any run in which a command stays in flight, the operand registers, the CRC registers and the
descriptors are what they were at issue. That the buffer is so too does not follow from these rules: on the hardware a
racing window write lands (R94). It holds here because such an access is the model fault BufferRace (R84, R94, R254, log
entry 8), so no run goes on through one. -/
def Obligations.OperandsFrozenFromIssueToCompletion : Prop :=
  ∀ (k : Nat) (s t : State),
    (∀ j ≤ k, ∃ u : State, Sys2Proof.core.run j s = .next u ∧ u.pending ≠ none) →
    Sys2Proof.core.run k s = .next t →
    t.pending = s.pending ∧ State.sameOperands s t ∧ ∀ (o : Nat), t.buf.read? o = s.buf.read? o

/-! ### Issue, completion, status, interrupt -/

/-- R230: issue. Every command word is accepted and nothing else changes; STATUS.BUSY then reads 1. -/
def Obligations.IssueMakesTheEngineBusy : Prop :=
  ∀ (s : State) (w : Word), s.pending = none →
    exec (.wrCmd w) s = .next { s with pending := some w } ∧
      State.statusWord { s with pending := some w } = s.statusWord ||| 1#32

/-- R232: while a command is in flight a write to CMD, an operand, a CRC register, CRC_DATA or a descriptor word has no
effect but OVERRUN; CTRL, STATUS and the read-only registers act as ever; a window access races. -/
def Obligations.BusyEngineDropsWrites : Prop :=
  ∀ (s : State) (c : Word), s.pending = some c →
    (∀ (i : Instr) (w : Word), i ∈ [Instr.wrCmd w, .wrOperand .maxSize w, .wrOperand .frameBase w, .wrOperand .blkStart w,
        .wrOperand .blkLen w, .wrCrcConfig .poly w, .wrCrcConfig .init w, .wrCrcConfig .xorout w, .wrCrcConfig .cfg w,
        .wrCrcState w, .wrCrcData8 w, .wrCrcData32 w] →
      exec i s = .next { s with status := { s.status with overrun := true } }) ∧
    (∀ (i : BitVec 8) (k : DescWord) (w : Word), i.toNat < s.params.ndesc →
      exec (.wrOperand (.desc i k) w) s = .next { s with status := { s.status with overrun := true } }) ∧
    (∀ (w : Word), w.getLsbD 1 = false → exec (.wrCtrl w) s = .next { s with ie := w.getLsbD 0 }) ∧
    (∀ (w : Word), w.getLsbD 1 = true → ∃ (t : State), exec (.wrCtrl w) s = .next t ∧ t.AtReset) ∧
    (∀ (w : Word), ∃ (t : State), exec (.wrStatus w) s = .next t ∧ t.status.overrun = (s.status.overrun && !w.getLsbD 3)) ∧
    (∀ (r : RoReg) (w : Word), exec (.wrRo r w) s = .next s) ∧
    (∀ (sz : AccessSize) (o : BitVec 16) (w : Word), inWindow s.params sz o →
      exec (.bufWr sz o w) s = .fault (.bufferRace (windowAddr o)) ∧
      exec (.bufRd sz o) s = .fault (.bufferRace (windowAddr o)))

/-- R233: every completion sets DONE and RESULT, sets ERR when the code is not OK (DONE and ERR are sticky), and clears
BUSY. That the engine's turn without a command in flight does nothing, and that the engine moves when no turn is left, is
the model's form (log entries 3 and 12). -/
def Obligations.EveryCompletionSetsDoneAndFreesTheEngine : Prop :=
  (∀ (s t : State) (w : Word), s.pending = some w → s.engineNext → step s = .next t →
    t.pending = none ∧ t.status.done = true ∧ t.status.overrun = s.status.overrun ∧
      t.status.err = (s.status.err || decide (t.status.result ≠ .ok)) ∧ t.ie = s.ie) ∧
  (∀ (s : State) (es : List Event), s.pending = none → s.events = .engine :: es →
      step s = .next { s with events := es }) ∧
  (∀ (s : State), s.pending = none → s.events = [] → step s = .next s)

/-- R235: NOP completes with OK and touches no data; every word with OP = 0 is a NOP. -/
def Obligations.NopCompletesWithOk : Prop :=
  (∀ (s : State), exec .nop s = .next { s with status := { s.status with done := true, result := .ok }, pending := none }) ∧
  (∀ w : Word, w.extractLsb' 0 4 = 0x0#4 → decodeCommand w = .nop) ∧
  (∃ (t : State), exec .nop { State.reset with pending := some 0x00000000 } = .next t ∧ t.statusWord = 0x00000002)

/-- R236: each reserved opcode completes with ILLEGAL_CMD and changes STATUS alone; SEED and DESC are ignored. -/
def Obligations.ReservedOpcodeCompletesWithIllegalCmd : Prop :=
  (∀ (s : State) (i : Instr), i ∈ [Instr.reserved5, .reserved6, .reserved7, .reserved8, .reserved9, .reservedA, .reservedB, .reservedC,
      .reservedD, .reservedE, .reservedF] →
    exec i s = .next { s with
      status := { s.status with done := true, err := true, result := .illegalCmd }, pending := none }) ∧
  (∀ (s : State) (w : Word), 5 ≤ (w.extractLsb' 0 4).toNat →
    runRaw (.command w) s = .next { s with
      status := { s.status with done := true, err := true, result := .illegalCmd }, pending := none }) ∧
  (∃ (t : State), exec .reserved5 { State.reset with pending := some 0x00000005 } = .next t ∧
    t.statusWord = 0x00000306)

/-- R150: CRC_INIT loads CRC_STATE from CRC_INIT and completes with OK; every word with OP = 1 is a CRC_INIT. -/
def Obligations.CrcInitLoadsTheInitialValue : Prop :=
  (∀ (s : State), exec .crcInit s = .next { s with
    crcState := s.crcInit, status := { s.status with done := true, result := .ok }, pending := none }) ∧
  (∀ w : Word, w.extractLsb' 0 4 = 0x1#4 → decodeCommand w = .crcInit) ∧
  (∃ (t u : State), exec .crcInit State.reset = .next t ∧ exec .rdCrcResult t = .next u ∧ u.rdata = 0x00000000)

/-- R238: a write of 1 to DONE, ERR or OVERRUN clears it; every other field of STATUS is read-only. -/
def Obligations.StatusWriteClearsByOnes : Prop :=
  ∀ (s : State) (w : Word), ∃ (t : State), exec (.wrStatus w) s = .next t ∧ t = { s with status := t.status } ∧
    (w.getLsbD 1 = true → t.status.done = false ∧ t.irq = false) ∧
    (w.getLsbD 1 = false → t.status.done = s.status.done) ∧
    (w.getLsbD 2 = true → t.status.err = false) ∧ (w.getLsbD 2 = false → t.status.err = s.status.err) ∧
    (w.getLsbD 3 = true → t.status.overrun = false) ∧ (w.getLsbD 3 = false → t.status.overrun = s.status.overrun) ∧
    t.status.flagOk = s.status.flagOk ∧ t.status.typeOk = s.status.typeOk ∧ t.status.result = s.status.result

/-- R35 and R251: where each field stands in the word a STATUS read returns, busy or not. -/
def Obligations.StatusReadLayout : Prop :=
  ∀ (s : State), ∃ v : Word, exec (.rdReg .status) s = .next { s with rdata := v } ∧
    (v.getLsbD 0 = true ↔ s.pending ≠ none) ∧ v.getLsbD 1 = s.status.done ∧ v.getLsbD 2 = s.status.err ∧
    v.getLsbD 3 = s.status.overrun ∧ v.getLsbD 4 = s.status.flagOk ∧ v.getLsbD 5 = s.status.typeOk ∧
    v.extractLsb' 6 2 = 0#2 ∧ v.extractLsb' 12 20 = 0#20 ∧
    (s.status.result = .ok → v.extractLsb' 8 4 = 0#4) ∧
    (s.status.result = .bufferTooSmall → v.extractLsb' 8 4 = 1#4) ∧
    (s.status.result = .checksumMismatch → v.extractLsb' 8 4 = 2#4) ∧
    (s.status.result = .illegalCmd → v.extractLsb' 8 4 = 3#4) ∧
    (s.status.result = .descError → v.extractLsb' 8 4 = 4#4) ∧
    (s.status.result = .rangeError → v.extractLsb' 8 4 = 5#4)

/-- R62 and R255: `irq` is IE & DONE; every completion with IE = 1 raises it, setting IE while DONE = 1 raises it at once,
clearing DONE or IE lowers it. -/
def Obligations.InterruptFollowsDoneAndEnable : Prop :=
  (∀ s : State, s.irq = true ↔ s.ie = true ∧ s.status.done = true) ∧
  (∀ (s t : State) (w : Word), s.pending = some w → s.engineNext → s.ie = true → step s = .next t → t.irq = true) ∧
  (∀ (s : State), s.status.done = true → ∃ (t : State), exec (.wrCtrl 0x00000001) s = .next t ∧ t.irq = true) ∧
  (∀ (s : State) (w : Word), w.getLsbD 1 = true → ∃ (t : State), exec (.wrStatus w) s = .next t ∧ t.irq = false) ∧
  (∀ (s : State) (w : Word), w.getLsbD 0 = false → ∃ (t : State), exec (.wrCtrl w) s = .next t ∧ t.irq = false)

/-! ### Register access -/

/-- R239, R31, R33: a read of a mapped register returns its value, busy or not, a write-only register 0, reserved bits 0;
nothing but the port's read data changes. -/
def Obligations.RegisterReadReturnsItsValue : Prop :=
  ∀ (s : State), exec (.rdReg .ctrl) s = .next { s with rdata := if s.ie then 1 else 0 } ∧
    exec (.rdReg .status) s = .next { s with rdata := s.statusWord } ∧
    exec (.rdReg .cmd) s = .next { s with rdata := 0 } ∧
    exec (.rdReg .maxSize) s = .next { s with rdata := s.maxSize } ∧
    exec (.rdReg .frameBase) s = .next { s with rdata := s.frameBase } ∧
    exec (.rdReg .blkStart) s = .next { s with rdata := s.blkStart } ∧
    exec (.rdReg .blkLen) s = .next { s with rdata := s.blkLen } ∧
    exec (.rdReg .crcPoly) s = .next { s with rdata := s.crcPoly } ∧
    exec (.rdReg .crcInit) s = .next { s with rdata := s.crcInit } ∧
    exec (.rdReg .crcXorout) s = .next { s with rdata := s.crcXorout } ∧
    exec (.rdReg .crcCfg) s = .next { s with rdata := s.crcCfg } ∧
    exec (.rdReg .crcData8) s = .next { s with rdata := 0 } ∧
    exec (.rdReg .crcData32) s = .next { s with rdata := 0 } ∧
    exec (.rdReg .rxFlag) s = .next { s with rdata := s.rxFlag.setWidth 32 } ∧
    exec (.rdReg .rxLen) s = .next { s with rdata := s.rxLen.setWidth 32 } ∧
    exec (.rdReg .rxType) s = .next { s with rdata := s.rxType.setWidth 32 } ∧
    exec (.rdReg .rxCrc) s = .next { s with rdata := s.rxCrc } ∧
    exec (.rdReg .calcCrc) s = .next { s with rdata := s.calcCrc } ∧
    exec (.rdReg .infoBuf) s = .next { s with rdata := BitVec.ofNat 32 s.params.bufBytes } ∧
    exec (.rdReg .infoNdesc) s = .next { s with rdata := BitVec.ofNat 32 s.params.ndesc } ∧
    ∀ (i : BitVec 8) (k : DescWord), (i.toNat < s.params.ndesc →
        exec (.rdReg (.desc i k)) s = .next { s with rdata := (s.desc i).word k }) ∧
      (s.params.ndesc ≤ i.toNat → exec (.rdReg (.desc i k)) s = .fault (.busError (descOffset i k)))

/-- R161, R163, R239: CRC_STATE and CRC_RESULT read the raw register and `final` of it; while a CRC_INIT or CRC_BLOCK is
in flight R239 leaves the value unspecified. The second clause is the model's form of that (DESIGN CHOICE, log entry 6):
the value is the opaque Config.freeRead of the counter `draws`, which the read advances; no other field changes. -/
def Obligations.CrcReadReturnsStateOrAFreeValue : Prop :=
  (∀ (s : State), (s.pending = none ∨ ∃ (w : Word), s.pending = some w ∧ w.extractLsb' 0 4 ≠ 0x1#4 ∧ w.extractLsb' 0 4 ≠ 0x2#4) →
    exec .rdCrcState s = .next { s with rdata := s.crcState } ∧
    exec .rdCrcResult s = .next { s with rdata := s.crcConf.final s.crcState }) ∧
  (∀ (s : State) (w : Word), s.pending = some w → (w.extractLsb' 0 4 = 0x1#4 ∨ w.extractLsb' 0 4 = 0x2#4) →
    exec .rdCrcState s = .next { s with rdata := Config.freeRead s.draws, draws := s.draws + 1 } ∧
    exec .rdCrcResult s = .next { s with rdata := Config.freeRead s.draws, draws := s.draws + 1 })

/-- R239: while no command is in flight, an operand write stores `w`, a descriptor header `w & 0x81FFFFFF`; the other
entries and words of the table keep their values. -/
def Obligations.OperandWriteStoresTheMaskedValue : Prop :=
  ∀ (s : State) (w : Word), s.pending = none →
    exec (.wrOperand .maxSize w) s = .next { s with maxSize := w } ∧
    exec (.wrOperand .frameBase w) s = .next { s with frameBase := w } ∧
    exec (.wrOperand .blkStart w) s = .next { s with blkStart := w } ∧
    exec (.wrOperand .blkLen w) s = .next { s with blkLen := w } ∧
    ∀ (i : BitVec 8) (k : DescWord), i.toNat < s.params.ndesc → s.descs.length = s.params.ndesc →
      ∃ (t : State), exec (.wrOperand (.desc i k) w) s = .next t ∧ t = { s with descs := t.descs } ∧
        t.descs.length = s.descs.length ∧
        (t.desc i).word k = (if k = .hdr then w &&& 0x81FFFFFF else w) ∧
        (∀ (k' : DescWord), k' ≠ k → (t.desc i).word k' = (s.desc i).word k') ∧
        ∀ (j : BitVec 8), j ≠ i → t.desc j = s.desc j

/-- R239, R32: after a write of `w` to a descriptor word the next read of it returns `w`, but for the reserved header bits,
which read 0. -/
def Obligations.DescriptorWriteReadsBack : Prop :=
  ∀ (s : State) (w : Word) (i : BitVec 8) (k : Nat) (es : List Event), s.pending = none → i.toNat < s.params.ndesc →
      s.descs.length = s.params.ndesc → s.params.legal →
    s.events = hostWrite (BitVec.ofNat 17 (0x100 + 16 * i.toNat + 4 * k)) w ::
      hostRead (BitVec.ofNat 17 (0x100 + 16 * i.toNat + 4 * k)) :: es → k < 4 →
    ∃ (t : State), Sys2Proof.core.run 2 s = .next t ∧ t.events = es ∧ t.rdata = if k = 0 then w &&& 0x81FFFFFF else w

/-- R87: no read has a side effect. A read turn changes nothing but the port's read data and the model's own counter. -/
def Obligations.ReadsChangeOnlyThePort : Prop :=
  ∀ (s t : State) (tx : BusTxn) (es : List Event), s.events = .bus tx :: es → tx.we = false → step s = .next t →
    t = { s with events := es, rdata := t.rdata, draws := t.draws }

/-- R240: a write to a read-only register completes without error and has no effect, busy or not. -/
def Obligations.ReadOnlyWriteHasNoEffect : Prop :=
  (∀ (s : State) (r : RoReg) (w : Word), exec (.wrRo r w) s = .next s) ∧
  (∀ (s : State) (a : Addr) (w : Word) (es : List Event),
    a ∈ ([0x030, 0x03C, 0x040, 0x044, 0x048, 0x04C, 0x050, 0x054] : List Addr) → s.events = hostWrite a w :: es →
    step s = .next { s with events := es })

/-! ### The CRC engine -/

/-- The examples of R141 to R144 at the reset parameters. -/
def Obligations.CrcPrimitivesMatchTheExamples : Prop :=
  reflect (0x31 : Byte) = 0x8C ∧ reflect (0x04C11DB7 : Word) = 0xEDB88320 ∧
    State.reset.crcConf.update 0xFFFFFFFF 0x00 = 0x4E08BFB4 ∧
    State.reset.crcConf.update 0xFFFFFFFF 0x31 = 0x1208C43E ∧
    CrcConf.update { State.reset.crcConf with refin := false } 0x00000000 0x01 = 0x04C11DB7 ∧
    State.reset.crcConf.final 0xFFFFFFFF = 0x00000000 ∧
    State.reset.crcConf.crc [0x31, 0x32, 0x33, 0x34, 0x35, 0x36, 0x37, 0x38, 0x39] = 0xCBF43926

/-- R155: WR_CRC_DATA8 feeds `wdata[7:0]` into CRC_STATE; while busy it is dropped with OVERRUN. -/
def Obligations.StreamByteWriteFeedsTheLowByte : Prop :=
  (∀ (s : State) (w : Word), s.pending = none → exec (.wrCrcData8 w) s = .next { s with
    crcState := s.crcConf.update s.crcState (w.extractLsb' 0 8) }) ∧
  (∀ (s : State) (w c : Word), s.pending = some c → exec (.wrCrcData8 w) s = .next { s with
    status := { s.status with overrun := true } }) ∧
  (∀ (s : State) (w w' : Word), w.extractLsb' 0 8 = w'.extractLsb' 0 8 →
      exec (.wrCrcData8 w) s = exec (.wrCrcData8 w') s)

/-- R157: WR_CRC_DATA32 is exactly four WR_CRC_DATA8 writes, low byte first, as one step; while busy it is dropped. -/
def Obligations.StreamWordWriteEqualsFourByteWrites : Prop :=
  (∀ (s : State) (w : Word), s.pending = none →
    ∃ (t : State), exec (.wrCrcData32 w) s = .next t ∧ t = { s with crcState := t.crcState } ∧
      s.streamBytes [w.extractLsb' 0 8, w.extractLsb' 8 8, w.extractLsb' 16 8, w.extractLsb' 24 8] = .next t) ∧
  (∀ (s : State) (w c : Word), s.pending = some c →
    exec (.wrCrcData32 w) s = .next { s with status := { s.status with overrun := true } })

/-- R159 and R165: the direct load of CRC_STATE and the CRC parameters, masked to their named fields; while busy each is
dropped with OVERRUN. A parameter write does not change CRC_STATE. -/
def Obligations.StateLoadAndConfigWrites : Prop :=
  (∀ (s : State) (w : Word), s.pending = none →
    exec (.wrCrcState w) s = .next { s with crcState := w } ∧
    exec (.wrCrcConfig .poly w) s = .next { s with crcPoly := w } ∧
    exec (.wrCrcConfig .init w) s = .next { s with crcInit := w } ∧
    exec (.wrCrcConfig .xorout w) s = .next { s with crcXorout := w } ∧
    exec (.wrCrcConfig .cfg w) s = .next { s with crcCfg := w &&& 0x00000003 }) ∧
  (∀ (s : State) (w c : Word) (r : CrcReg), s.pending = some c →
    exec (.wrCrcState w) s = .next { s with status := { s.status with overrun := true } } ∧
    exec (.wrCrcConfig r w) s = .next { s with status := { s.status with overrun := true } })

/-- R152: CRC_BLOCK. In range and all written, it runs the bytes from CRC_INIT (SEED) or CRC_STATE and completes with OK;
out of range (no wrap at 2^32) it completes with RANGE_ERROR and the SEED load does not happen; an unwritten byte is the
model fault UninitRead (R63, R254). That the fault names the lowest unwritten offset is the model's choice (log entry 9).
The buffer is never written. -/
def Obligations.CrcBlockProcessesTheRange : Prop :=
  (∀ (s : State) (seed : Bool), s.blkStart.toNat + s.blkLen.toNat ≤ s.params.bufBytes →
      s.written s.blkStart.toNat s.blkLen.toNat →
    ∃ bs : List Byte, bs.length = s.blkLen.toNat ∧
      (∀ k < s.blkLen.toNat, s.buf.read? (s.blkStart.toNat + k) = bs[k]?) ∧
      exec (.crcBlock seed) s = .next { s with
        crcState := s.crcConf.run (if seed then s.crcInit else s.crcState) bs
        status := { s.status with done := true, result := .ok }
        pending := none }) ∧
  (∀ (s : State) (seed : Bool), s.params.bufBytes < s.blkStart.toNat + s.blkLen.toNat →
    exec (.crcBlock seed) s = .next { s with
      status := { s.status with done := true, err := true, result := .rangeError }
      pending := none }) ∧
  (∀ (s : State) (seed : Bool) (k : Nat), s.blkStart.toNat + s.blkLen.toNat ≤ s.params.bufBytes → k < s.blkLen.toNat →
    s.buf.read? (s.blkStart.toNat + k) = none → s.written s.blkStart.toNat k →
    exec (.crcBlock seed) s = .fault (.uninitRead (s.blkStart.toNat + k))) ∧
  (∀ w : Word, w.extractLsb' 0 4 = 0x2#4 → decodeCommand w = .crcBlock (w.getLsbD 4))

/-- R146: streaming and block-wise computation agree. CRC_BLOCK with SEED = 0 leaves in CRC_STATE what feeding the same
bytes by WR_CRC_DATA8 leaves, and any split of a sequence gives the one-pass register. -/
def Obligations.BlockAgreesWithByteStream : Prop :=
  (∀ (s : State) (bs : List Byte), s.pending = none → s.blkStart.toNat + s.blkLen.toNat ≤ s.params.bufBytes →
    bs.length = s.blkLen.toNat → (∀ k < s.blkLen.toNat, s.buf.read? (s.blkStart.toNat + k) = bs[k]?) →
    ∃ (t u : State), s.streamBytes bs = .next t ∧ exec (.crcBlock false) s = .next u ∧ u.crcState = t.crcState ∧
      t = { s with crcState := t.crcState }) ∧
  (∀ (s : State) (p q : List Byte) (t u v : State), s.pending = none → s.streamBytes p = .next t →
      t.streamBytes q = .next u →
    s.streamBytes (p ++ q) = .next v → u = v)

/-- R145: the CRC of the empty range is `final(init)`, 0x00000000 at the reset parameters. -/
def Obligations.EmptyRangeCrcIsFinalOfInit : Prop :=
  (∀ c : CrcConf, c.crc [] = c.final c.init) ∧ State.reset.crcConf.crc [] = 0x00000000

/-- R167: with POLY = 0 an update is a shift by 8, the register after L bytes is `(init << 8L) mod 2^32` and every sequence of 4 or more bytes has the
CRC `final(0)`; with refin = 1, refout = 0 the check value is 0x649C2FD3; with init = xorout = 0 all-zero bytes give 0. -/
def Obligations.CornerCasesOfTheParameters : Prop :=
  (∀ (c : CrcConf) (r : Word) (b : Byte), c.poly = 0 → c.update r b = r <<< 8) ∧
  (∀ (c : CrcConf) (r : Word) (bs : List Byte), c.poly = 0 →
    (c.run r bs).toNat = r.toNat * 2 ^ (8 * bs.length) % 2 ^ 32) ∧
  (∀ (c : CrcConf) (bs : List Byte), c.poly = 0 → 4 ≤ bs.length → c.crc bs = c.final 0) ∧
  CrcConf.crc { State.reset.crcConf with poly := 0 } [0x31, 0x32, 0x33, 0x34, 0x35, 0x36, 0x37, 0x38, 0x39] = 0xFFFFFFFF ∧
  CrcConf.crc { State.reset.crcConf with poly := 0 } [0x07] = 0xFF000000 ∧
  CrcConf.crc { State.reset.crcConf with poly := 0 } [0x06] = 0xFF000000 ∧
  CrcConf.crc { State.reset.crcConf with poly := 0 } [0x00, 0x07] = 0xFFFF0000 ∧
  CrcConf.crc { State.reset.crcConf with refin := true, refout := false }
    [0x31, 0x32, 0x33, 0x34, 0x35, 0x36, 0x37, 0x38, 0x39] = 0x649C2FD3 ∧
  (∀ (c : CrcConf) (n : Nat), c.init = 0 → c.xorout = 0 → c.crc (List.replicate n 0) = 0)

/-- R168: for a fixed length, flipping one input bit always changes the CRC if and only if POLY != 0. -/
def Obligations.OneBitFlipChangesTheCrcIffPolyNonzero : Prop :=
  ∀ (c : CrcConf) (n : Nat), 1 ≤ n →
    ((∀ (bs : List Byte) (i k : Nat), bs.length = n → i < n → k < 8 → c.crc (flipBit bs i k) ≠ c.crc bs) ↔
      c.poly ≠ 0)

/-! ### The frame codec -/

/-- R182, R185, R187, R190: ENCODE whose precheck passes and whose range bytes beyond the header are written. The header,
then the checksum over the just-written bytes placed in the descriptor's order; CALC_CRC and STATUS; every other register
and every other byte as before. -/
def Obligations.EncodeBuildsHeaderAndChecksum : Prop :=
  ∀ (s : State) (d : BitVec 8), s.precheckPasses d →
    (∀ k < (s.desc d).C, 4 ≤ (s.desc d).S + k → (s.buf.read? (s.base + (s.desc d).S + k)).isSome = true) →
    ∃ (t : State) (bs : List Byte), exec (.encodeFrame d) s = .next t ∧ bs.length = (s.desc d).C ∧
      (∀ k < (s.desc d).C, t.buf.read? (s.base + (s.desc d).S + k) = bs[k]?) ∧
      t = { s with
        buf := t.buf
        calcCrc := s.crcConf.crc bs
        status := { s.status with done := true, result := .ok }
        pending := none } ∧
      t.buf.read? s.base = some 0x7E ∧
      t.buf.read? (s.base + 1) = some ((s.desc d).hdr.extractLsb' 8 8) ∧
      t.buf.read? (s.base + 2) = some ((s.desc d).hdr.extractLsb' 16 8) ∧
      t.buf.read? (s.base + 3) = some ((s.desc d).hdr.extractLsb' 0 8) ∧
      (∀ k < 4, t.buf.read? (s.base + (s.desc d).N - 4 + k) =
        some (if (s.desc d).hdr.getLsbD 24 then (s.crcConf.crc bs).extractLsb' (8 * (3 - k)) 8
          else (s.crcConf.crc bs).extractLsb' (8 * k) 8)) ∧
      ∀ (o : Nat), ¬ s.encodeWrites d o → t.buf.read? o = s.buf.read? o

/-- R188 and R58: the precheck of ENCODE, in its order; each failure leaves everything but STATUS and `pending` unchanged.
Each of R58's four conditions on its own gives DESC_ERROR: an index at or above NDESC, VALID (HDR bit 31) = 0, SIZE below
8, or a range that, without wrap-around, reaches beyond SIZE - 4. -/
def Obligations.EncodePrecheckReportsTheFirstFailure : Prop :=
  ∀ (s : State) (d : BitVec 8),
    ((s.params.ndesc ≤ d.toNat ∨ (s.desc d).hdr.getLsbD 31 = false ∨ (s.desc d).size.toNat < 8 ∨
        (s.desc d).size.toNat - 4 < (s.desc d).crcStart.toNat + (s.desc d).crcLen.toNat) →
      exec (.encodeFrame d) s = .next { s with
      status := { s.status with done := true, err := true, result := .descError }, pending := none }) ∧
    (s.descriptorOk d → s.maxSize.toNat < (s.desc d).N → exec (.encodeFrame d) s = .next { s with
      status := { s.status with done := true, err := true, result := .bufferTooSmall }, pending := none }) ∧
    (s.descriptorOk d → (s.desc d).N ≤ s.maxSize.toNat → s.params.bufBytes < s.base + (s.desc d).N →
      exec (.encodeFrame d) s = .next { s with
        status := { s.status with done := true, err := true, result := .rangeError }, pending := none })

/-- R200: a DECODE whose precheck fails clears RX_FLAG, RX_LEN, RX_TYPE, RX_CRC, CALC_CRC, FLAG_OK and TYPE_OK and
completes with the first failure's code (R188); it reads and writes no buffer byte. -/
def Obligations.DecodeRejectClearsTheResultRegisters : Prop :=
  ∀ (s : State) (d : BitVec 8), ¬ s.precheckPasses d →
    ∃ (code : ResultCode), exec (.decodeFrame d) s = .next { s with
        rxFlag := 0
        rxLen := 0
        rxType := 0
        rxCrc := 0
        calcCrc := 0
        status := { s.status with done := true, err := true, flagOk := false, typeOk := false, result := code }
        pending := none } ∧
      (¬ s.descriptorOk d → code = .descError) ∧
      (s.descriptorOk d → s.maxSize.toNat < (s.desc d).N → code = .bufferTooSmall) ∧
      (s.descriptorOk d → (s.desc d).N ≤ s.maxSize.toNat → code = .rangeError)

/-- R184, R187, R195, R201: DECODE whose precheck passes and whose bytes are written. It accepts or rejects on the checksum
alone, reports the flag and type comparisons in STATUS, and writes no buffer byte. -/
def Obligations.DecodeParsesAndValidates : Prop :=
  ∀ (s : State) (d : BitVec 8) (b0 b1 : Byte) (b2 b3 : Byte) (bs : List Byte) (c0 c1 : Byte) (c2 c3 : Byte), s.precheckPasses d →
    s.buf.read? s.base = some b0 → s.buf.read? (s.base + 1) = some b1 →
    s.buf.read? (s.base + 2) = some b2 → s.buf.read? (s.base + 3) = some b3 →
    bs.length = (s.desc d).C → (∀ k < (s.desc d).C, s.buf.read? (s.base + (s.desc d).S + k) = bs[k]?) →
    s.buf.read? (s.base + (s.desc d).N - 4) = some c0 → s.buf.read? (s.base + (s.desc d).N - 3) = some c1 →
    s.buf.read? (s.base + (s.desc d).N - 2) = some c2 → s.buf.read? (s.base + (s.desc d).N - 1) = some c3 →
    ∃ (t : State), exec (.decodeFrame d) s = .next t ∧
      t = { s with
        rxFlag := t.rxFlag
        rxLen := b1 ++ b2
        rxType := b3
        rxCrc := if (s.desc d).hdr.getLsbD 24 then c0 ++ c1 ++ c2 ++ c3 else c3 ++ c2 ++ c1 ++ c0
        calcCrc := s.crcConf.crc bs
        status := t.status
        pending := none } ∧
      t.status = { s.status with
        done := true
        err := s.status.err || decide (t.calcCrc ≠ t.rxCrc)
        flagOk := decide (b0 = 0x7E)
        typeOk := decide (b3 = (s.desc d).hdr.extractLsb' 0 8)
        result := t.status.result } ∧
      (t.calcCrc = t.rxCrc → t.rxFlag = b0 ∧ t.status.result = .ok) ∧
      (t.calcCrc ≠ t.rxCrc → t.rxFlag = 0 ∧ t.status.result = .checksumMismatch)

/-- R203 (a): ENCODE completing with OK, then DECODE of the same descriptor under the same parameters over the same frame
bytes, gives OK with the canonical header, equal checksums and an unchanged payload. -/
def Obligations.EncodeThenDecodeRoundTrips : Prop :=
  ∀ (s t u : State) (d : BitVec 8), exec (.encodeFrame d) s = .next t → t.status.result = .ok →
      State.sameCodec t u d →
    (∀ j < (s.desc d).N, u.buf.read? (s.base + j) = t.buf.read? (s.base + j)) →
    ∃ (v : State), exec (.decodeFrame d) u = .next v ∧ v.status.result = .ok ∧ v.rxFlag = 0x7E ∧
      v.rxLen = (s.desc d).hdr.extractLsb' 8 8 ++ (s.desc d).hdr.extractLsb' 16 8 ∧
      v.rxType = (s.desc d).hdr.extractLsb' 0 8 ∧ v.rxCrc = t.calcCrc ∧ v.calcCrc = t.calcCrc ∧
      v.status.flagOk = true ∧ v.status.typeOk = true ∧
      ∀ (j : Nat), 4 ≤ j → j < (s.desc d).N - 4 → v.buf.read? (s.base + j) = s.buf.read? (s.base + j)

/-- R203 (b): for every MAX_SIZE < N, ENCODE completes with BUFFER_TOO_SMALL and writes no byte, and DECODE completes with
BUFFER_TOO_SMALL and RX_FLAG = 0. -/
def Obligations.SizeGuardRefusesAndWritesNothing : Prop :=
  ∀ (s : State) (d : BitVec 8) (m : Word), s.descriptorOk d → s.base + (s.desc d).N ≤ s.params.bufBytes →
      m.toNat < (s.desc d).N →
    ∃ (t v : State), exec (.encodeFrame d) { s with maxSize := m } = .next t ∧ t.status.result = .bufferTooSmall ∧ t.buf = s.buf ∧
      exec (.decodeFrame d) { s with maxSize := m } = .next v ∧ v.status.result = .bufferTooSmall ∧ v.rxFlag = 0 ∧
      v.buf = s.buf

/-- R204: with CRC_POLY != 0, flipping exactly one bit inside the checksummed range of a frame that DECODE accepts makes
DECODE reject it. -/
def Obligations.OneBitFlipInTheRangeIsDetected : Prop :=
  ∀ (s t : State) (d : BitVec 8) (i k : Nat) (b : Byte), s.crcPoly ≠ 0 → exec (.decodeFrame d) s = .next t →
      t.status.result = .ok →
    i < (s.desc d).C → k < 8 → s.buf.read? (s.base + (s.desc d).S + i) = some b →
    ∃ (v : State), exec (.decodeFrame d) { s with buf := s.buf.write (s.base + (s.desc d).S + i) (b ^^^ (1#8 <<< k)) } = .next v ∧
      v.status.result = .checksumMismatch ∧ v.rxFlag = 0

/-- R204: a flip inside the four checksum bytes is detected for every POLY. -/
def Obligations.OneBitFlipInTheChecksumIsDetected : Prop :=
  ∀ (s t : State) (d : BitVec 8) (j k : Nat) (b : Byte), exec (.decodeFrame d) s = .next t → t.status.result = .ok →
      j < 4 → k < 8 →
    s.buf.read? (s.base + (s.desc d).N - 4 + j) = some b →
    ∃ (v : State), exec (.decodeFrame d) { s with buf := s.buf.write (s.base + (s.desc d).N - 4 + j) (b ^^^ (1#8 <<< k)) } =
        .next v ∧
      v.status.result = .checksumMismatch ∧ v.rxFlag = 0

/-- R205: a change to any frame byte outside the checksummed range and the checksum does not change the verdict, and the
parser shows it when it falls in the header. -/
def Obligations.ChangeOutsideTheRangeKeepsTheVerdict : Prop :=
  ∀ (s t : State) (d : BitVec 8) (j : Nat) (b : Byte), s.precheckPasses d → exec (.decodeFrame d) s = .next t →
      j < (s.desc d).N - 4 →
    (j < (s.desc d).S ∨ (s.desc d).S + (s.desc d).C ≤ j) →
    ∃ (v : State), exec (.decodeFrame d) { s with buf := s.buf.write (s.base + j) b } = .next v ∧
      v.status.result = t.status.result ∧ v.calcCrc = t.calcCrc ∧ v.rxCrc = t.rxCrc ∧
      (j = 0 → t.status.result = .ok → v.rxFlag = b) ∧ (j = 1 → v.rxLen.extractLsb' 8 8 = b) ∧
      (j = 2 → v.rxLen.extractLsb' 0 8 = b) ∧ (j = 3 → v.rxType = b)

/-- R186: for both orders `extract(place(c, o), o) = c`, and placement is the inverse of extraction. -/
def Obligations.ExtractInvertsPlace : Prop :=
  (∀ (b0 b1 : Byte) (b2 b3 : Byte), extract b0 b1 b2 b3 false = b3 ++ b2 ++ b1 ++ b0 ∧
    extract b0 b1 b2 b3 true = b0 ++ b1 ++ b2 ++ b3) ∧
  (∀ (c : Word) (o : Bool) (b0 b1 : Byte) (b2 b3 : Byte), place c o = [b0, b1, b2, b3] → extract b0 b1 b2 b3 o = c) ∧
  (∀ (o : Bool) (b0 b1 b2 b3 : Byte), place (extract b0 b1 b2 b3 o) o = [b0, b1, b2, b3]) ∧
  (∀ (c : Word) (o : Bool), (place c o).length = 4)

/-- R63, R190, R195: with the precheck passed, ENCODE and DECODE fault with UninitRead at the first unwritten byte of the
checksummed range (ENCODE's own header bytes count as written); DECODE also at an unwritten header or checksum byte. That
the lowest such offset is named, header before range before checksum, is the model's choice (log entry 9). -/
def Obligations.CodecFaultsOnUnwrittenBytes : Prop :=
  (∀ (s : State) (d : BitVec 8) (k : Nat), s.precheckPasses d → k < (s.desc d).C → 4 ≤ (s.desc d).S + k →
    s.buf.read? (s.base + (s.desc d).S + k) = none →
    (∀ j < k, 4 ≤ (s.desc d).S + j → (s.buf.read? (s.base + (s.desc d).S + j)).isSome = true) →
    exec (.encodeFrame d) s = .fault (.uninitRead (s.base + (s.desc d).S + k))) ∧
  (∀ (s : State) (d : BitVec 8) (k : Nat), s.precheckPasses d → k < 4 → s.buf.read? (s.base + k) = none →
      s.written s.base k →
    exec (.decodeFrame d) s = .fault (.uninitRead (s.base + k))) ∧
  (∀ (s : State) (d : BitVec 8) (k : Nat), s.precheckPasses d → s.written s.base 4 → k < (s.desc d).C →
    s.buf.read? (s.base + (s.desc d).S + k) = none → s.written (s.base + (s.desc d).S) k →
    exec (.decodeFrame d) s = .fault (.uninitRead (s.base + (s.desc d).S + k))) ∧
  (∀ (s : State) (d : BitVec 8) (k : Nat), s.precheckPasses d → s.written s.base 4 →
      s.written (s.base + (s.desc d).S) (s.desc d).C → k < 4 →
    s.buf.read? (s.base + (s.desc d).N - 4 + k) = none → s.written (s.base + (s.desc d).N - 4) k →
    exec (.decodeFrame d) s = .fault (.uninitRead (s.base + (s.desc d).N - 4 + k)))

/-! ### The buffer window -/

/-- R84, R85: a legal window write while no command is in flight stores the low n bytes of `wdata`, lowest offset first,
and changes nothing else. -/
def Obligations.BufferWriteStoresLittleEndian : Prop :=
  ∀ (s : State) (sz : AccessSize) (o : BitVec 16) (w : Word), s.pending = none → o.toNat % sz.bytes = 0 →
      o.toNat + sz.bytes ≤ s.params.bufBytes →
    ∃ (t : State), exec (.bufWr sz o w) s = .next t ∧ t = { s with buf := t.buf } ∧
      (∀ k < sz.bytes, t.buf.read? (o.toNat + k) = some (w.extractLsb' (8 * k) 8)) ∧
      ∀ (a : Nat), (a < o.toNat ∨ o.toNat + sz.bytes ≤ a) → t.buf.read? a = s.buf.read? a

/-- R84, R85: a legal window read of written bytes while no command is in flight returns their little-endian value,
zero-extended, and changes nothing else. -/
def Obligations.BufferReadComposesLittleEndian : Prop :=
  (∀ (s : State) (o : BitVec 16) (b0 : Byte), s.pending = none → o.toNat + 1 ≤ s.params.bufBytes →
      s.buf.read? o.toNat = some b0 →
    exec (.bufRd .byte o) s = .next { s with rdata := b0.setWidth 32 }) ∧
  (∀ (s : State) (o : BitVec 16) (b0 b1 : Byte), s.pending = none → o.toNat % 2 = 0 →
      o.toNat + 2 ≤ s.params.bufBytes →
    s.buf.read? o.toNat = some b0 → s.buf.read? (o.toNat + 1) = some b1 →
    exec (.bufRd .half o) s = .next { s with rdata := (b1 ++ b0).setWidth 32 }) ∧
  (∀ (s : State) (o : BitVec 16) (b0 b1 : Byte) (b2 b3 : Byte), s.pending = none → o.toNat % 4 = 0 →
      o.toNat + 4 ≤ s.params.bufBytes →
    s.buf.read? o.toNat = some b0 → s.buf.read? (o.toNat + 1) = some b1 → s.buf.read? (o.toNat + 2) = some b2 →
    s.buf.read? (o.toNat + 3) = some b3 →
    exec (.bufRd .word o) s = .next { s with rdata := b3 ++ b2 ++ b1 ++ b0 })

/-- R84, R256: a window access faults with BusError when it does not fit, busy or not; else with BufferRace while a command
is in flight; else a read with UninitRead at its first unwritten byte. -/
def Obligations.WindowAccessFaultsInOrder : Prop :=
  (∀ (s : State) (sz : AccessSize) (o : BitVec 16) (w : Word), ¬ (o.toNat % sz.bytes = 0 ∧ o.toNat + sz.bytes ≤ s.params.bufBytes) →
    exec (.bufWr sz o w) s = .fault (.busError (windowAddr o)) ∧
    exec (.bufRd sz o) s = .fault (.busError (windowAddr o))) ∧
  (∀ (s : State) (sz : AccessSize) (o : BitVec 16) (w : Word), o.toNat % sz.bytes = 0 ∧ o.toNat + sz.bytes ≤ s.params.bufBytes → s.pending ≠ none →
    exec (.bufWr sz o w) s = .fault (.bufferRace (windowAddr o)) ∧
    exec (.bufRd sz o) s = .fault (.bufferRace (windowAddr o))) ∧
  (∀ (s : State) (sz : AccessSize) (o : BitVec 16) (k : Nat), o.toNat % sz.bytes = 0 ∧ o.toNat + sz.bytes ≤ s.params.bufBytes → s.pending = none →
    k < sz.bytes → s.buf.read? (o.toNat + k) = none → s.written o.toNat k →
    exec (.bufRd sz o) s = .fault (.uninitRead (o.toNat + k)))

/-- R85, R90: a window write, then a read of the same width and offset, returns the low n bytes of what was written. -/
def Obligations.BufferWriteThenReadReturnsTheData : Prop :=
  ∀ (s : State) (sz : AccessSize) (o : BitVec 16) (w : Word), s.pending = none → o.toNat % sz.bytes = 0 →
      o.toNat + sz.bytes ≤ s.params.bufBytes →
    ∃ (t u : State), exec (.bufWr sz o w) s = .next t ∧ exec (.bufRd sz o) t = .next u ∧
      u.rdata.toNat = w.toNat % 2 ^ (8 * sz.bytes) ∧ u.buf = t.buf

/-! ### Encoding -/

/-- Decode and encode agree: under every legal parameter set, every well-formed operation's encoding decodes to it, with
every operand at every value. -/
def Obligations.DecodeInvertsEncode : Prop :=
  ∀ (p : Params) (i : Instr), p.legal → i.wf p = true → decode p (encode i) = .ok i

/-- R83, R84, R252: a transaction is a bus error exactly when the rules say, and then nothing else happens: the step is the
fault BusError with the transaction's address. -/
def Obligations.BusErrorExactlyWhenTheRulesSay : Prop :=
  ∀ (s : State) (t : BusTxn) (es : List Event), s.params.legal → s.events = .bus t :: es →
    (step s = .fault (.busError t.addr) ↔ busErrorTxn s.params t)

/-- R116, R117: decoding a transaction loses no bit of it: a decoded write encodes back to the very transaction, a decoded
read to it with the unused `wdata` 0; what decodes is well-formed. -/
def Obligations.TransactionDecodeLosesNoBit : Prop :=
  ∀ (p : Params) (t : BusTxn) (i : Instr), p.legal → decode p (.bus t) = .ok i →
    i.wf p = true ∧ encode i = .bus { t with wdata := if t.we then t.wdata else 0 }

/-- R114: a command with non-zero reserved bits executes as the same command with those bits zero. -/
def Obligations.ReservedCommandBitsAreIgnored : Prop :=
  ∀ (s : State) (w : Word), runRaw (.command w) s = runRaw (.command (w &&& 0x0000FF1F)) s

/-- R111 to R113, R115: OP alone selects the operation, SEED is bit 4, DESC bits 15:8; every command word decodes. -/
def Obligations.OpcodeSelectsTheOperation : Prop :=
  ∀ (p : Params) (w : Word),
    (w.extractLsb' 0 4 = 0x0#4 → decode p (.command w) = .ok .nop) ∧
    (w.extractLsb' 0 4 = 0x1#4 → decode p (.command w) = .ok .crcInit) ∧
    (w.extractLsb' 0 4 = 0x2#4 → decode p (.command w) = .ok (.crcBlock (w.getLsbD 4))) ∧
    (w.extractLsb' 0 4 = 0x3#4 → decode p (.command w) = .ok (.encodeFrame (w.extractLsb' 8 8))) ∧
    (w.extractLsb' 0 4 = 0x4#4 → decode p (.command w) = .ok (.decodeFrame (w.extractLsb' 8 8))) ∧
    (5 ≤ (w.extractLsb' 0 4).toNat →
      ∃ i ∈ [Instr.reserved5, .reserved6, .reserved7, .reserved8, .reserved9, .reservedA, .reservedB, .reservedC,
        .reservedD, .reservedE, .reservedF], decode p (.command w) = .ok i)

/-- Words and transactions written out from 30_encoding.md (R116, R123's example and 95_test_vectors.md §6) decode to what
they stand for. -/
def Obligations.SampleWordsDecode : Prop :=
  decode Params.default (.command 0x00000012) = .ok (.crcBlock true) ∧
  decode Params.default (.command 0x00000103) = .ok (.encodeFrame 1) ∧
  decode Params.default (.command 0x0000C804) = .ok (.decodeFrame 200) ∧
  decode Params.default (.bus { we := true, addr := 0x00008, size := 2, wdata := 0x00000103 }) = .ok (.wrCmd 0x103) ∧
  decode Params.default (.bus { we := false, addr := 0x0004C, size := 2, wdata := 0 }) = .ok (.rdReg .calcCrc) ∧
  decode Params.default (.bus { we := true, addr := 0x00114, size := 2, wdata := 10 }) =
    .ok (.wrOperand (.desc 1 .size) 10) ∧
  decode Params.default (.bus { we := true, addr := 0x10044, size := 1, wdata := 0x0000BBAA }) =
    .ok (.bufWr .half 0x44 0xBBAA) ∧
  decode Params.default (.bus { we := false, addr := 0x10048, size := 1, wdata := 0 }) = .ok (.bufRd .half 0x48)

/-! ### The machine -/

/-- R82, R83, R90, R233: one turn runs exactly the operation it names. A transaction that the decoder rejects is the fault
BusError (R252, log entry 7). The list of turns, from which the turn is taken off, is the model's form of the interleaving
(DESIGN CHOICE, log entry 3), and so is the last clause: with no turn left the engine moves (DESIGN CHOICE, log entry 12);
R233 says only that its step is enabled. -/
def Obligations.StepRunsTheDecodedOperation : Prop :=
  (∀ (s : State) (t : BusTxn) (es : List Event) (i : Instr), s.events = .bus t :: es →
      decode s.params (.bus t) = .ok i →
    step s = exec i { s with events := es }) ∧
  (∀ (s : State) (t : BusTxn) (es : List Event) (e : BusReject), s.events = .bus t :: es →
      decode s.params (.bus t) = .error e →
    step s = .fault (.busError e.addr)) ∧
  (∀ (s : State) (w : Word) (es : List Event) (i : Instr), s.pending = some w → s.events = .engine :: es →
      decode s.params (.command w) = .ok i →
    step s = exec i { s with events := es }) ∧
  (∀ (s : State) (w : Word) (i : Instr), s.pending = some w → s.events = [] → decode s.params (.command w) = .ok i →
      step s = exec i s)

/-- The invariant holds at reset. -/
def Obligations.ResetMeetsTheStateRules : Prop := State.reset.Inv

/-- Every step of the machine keeps the invariant: legal parameters, NDESC descriptor entries, reserved bits 0, the frame
buffer in canonical form and inside BUF_BYTES. -/
def Obligations.StepKeepsTheStateRules : Prop :=
  ∀ (s t : State), s.Inv → step s = .next t → t.Inv

/-- R59, R84, R89, R292: what can change a frame-buffer byte. Only a window write that covers it while no command is in
flight; the completion of an ENCODE whose precheck passes, at a header or checksum byte of its frame; a soft reset that
aborts such an ENCODE; a power-on reset. -/
def Obligations.BufferByteChangesOnlyByTheseEvents : Prop :=
  ∀ (s t : State) (o : Nat), step s = .next t → t.buf.read? o ≠ s.buf.read? o →
    (∃ (tx : BusTxn) (es : List Event), s.events = .bus tx :: es ∧ tx.we = true ∧ s.pending = none ∧
      0x10000 ≤ tx.addr.toNat ∧ tx.addr.toNat - 0x10000 ≤ o ∧
      o < tx.addr.toNat - 0x10000 + 2 ^ tx.size.toNat) ∨
    (s.engineNext ∧ ∃ (w : Word), s.pending = some w ∧ w.extractLsb' 0 4 = 0x3#4 ∧
      s.precheckPasses (w.extractLsb' 8 8) ∧ s.encodeWrites (w.extractLsb' 8 8) o) ∨
    (s.abortLoses o ∧ ∃ (v : Word) (es : List Event), v.getLsbD 1 = true ∧ s.events = hostWrite 0x000 v :: es) ∨
    (∃ (es : List Event), s.events = .powerOn :: es)

/-- R45, R61, R298: CRC_STATE changes only by a streaming write or a direct write while no command is in flight, by the
completion of CRC_INIT or CRC_BLOCK, or by a reset; ENCODE and DECODE never change it. -/
def Obligations.CrcStateChangesOnlyByTheseEvents : Prop :=
  ∀ (s t : State), step s = .next t → t.crcState ≠ s.crcState →
    (∃ (a : Addr) (w : Word) (es : List Event), (a = 0x02C ∨ a = 0x034 ∨ a = 0x038) ∧ s.events = hostWrite a w :: es ∧ s.pending = none) ∨
    (s.engineNext ∧ ∃ (w : Word), s.pending = some w ∧ (w.extractLsb' 0 4 = 0x1#4 ∨ w.extractLsb' 0 4 = 0x2#4)) ∨
    (∃ (v : Word) (es : List Event), v.getLsbD 1 = true ∧ s.events = hostWrite 0x000 v :: es) ∨
    (∃ (es : List Event), s.events = .powerOn :: es)

/-- R49, R201: RX_FLAG, RX_LEN, RX_TYPE, RX_CRC, FLAG_OK and TYPE_OK keep their values until the next DECODE or reset. -/
def Obligations.ParserResultsChangeOnlyByDecodeOrReset : Prop :=
  ∀ (s t : State), step s = .next t →
    (s.engineNext ∧ ∃ (w : Word), s.pending = some w ∧ w.extractLsb' 0 4 = 0x4#4) ∨
    (∃ (v : Word) (es : List Event), v.getLsbD 1 = true ∧ s.events = hostWrite 0x000 v :: es) ∨
    (∃ (es : List Event), s.events = .powerOn :: es) ∨
    (t.rxFlag = s.rxFlag ∧ t.rxLen = s.rxLen ∧ t.rxType = s.rxType ∧ t.rxCrc = s.rxCrc ∧
      t.status.flagOk = s.status.flagOk ∧ t.status.typeOk = s.status.typeOk)

/-- R241, R126: no polling delays completion. With every byte of the buffer written, a state with a command in flight and
any number n of STATUS reads waiting completes the command at step n + 1, and each of those reads shows BUSY = 1. That the
engine moves when no turn is left is the model's form of fairness (log entries 3 and 12). -/
def Obligations.PollingReachesCompletion : Prop :=
  ∀ (n : Nat) (s : State) (w : Word), s.pending = some w → s.events = List.replicate n (hostRead 0x004) →
    s.written 0 s.params.bufBytes →
    (∀ (j : Nat), j < n → ∃ u : State, Sys2Proof.core.run (j + 1) s = .next u ∧ u.pending = some w ∧
      u.rdata.getLsbD 0 = true) ∧
    ∃ t : State, Sys2Proof.core.run (n + 1) s = .next t ∧ t.pending = none ∧ t.status.done = true

/-- R257: a W1C of DONE in the completion cycle of any command leaves DONE = 0 when it comes after the completion and
DONE = 1 when it comes before; the model admits both orders. Every byte of the buffer is written, so that no command stops
at an unwritten byte (R63, log entry 9). The two orders are two lists of turns (log entry 3). -/
def Obligations.BothOrdersOfClearAndCompletion : Prop :=
  ∀ (s : State) (w v : Word), s.pending = some w → s.written 0 s.params.bufBytes → v.getLsbD 1 = true →
    (∃ t : State, Sys2Proof.core.run 2 { s with events := [.engine, hostWrite 0x004 v] } = .next t ∧
      t.status.done = false ∧ t.pending = none) ∧
    (∃ t : State, Sys2Proof.core.run 2 { s with events := [hostWrite 0x004 v, .engine] } = .next t ∧
      t.status.done = true ∧ t.pending = none)
end

