-- ==== Sys2Proof/Laws/Crc.lean ====
section
/-! SUPPORT. Laws of the CRC function: folding, linearity of the shift register, POLY = 0. -/

namespace Sys2Proof.Machine

@[simp] theorem CrcConf.run_nil (c : CrcConf) (r : Word) : c.run r [] = r := rfl

@[simp] theorem CrcConf.run_cons (c : CrcConf) (r : Word) (b : Byte) (bs : List Byte) :
    c.run r (b :: bs) = c.run (c.update r b) bs := rfl

/-- R146's fold law. -/
theorem CrcConf.run_append (c : CrcConf) (r : Word) (p q : List Byte) : c.run r (p ++ q) = c.run (c.run r p) q :=
  List.foldl_append

@[simp] theorem crcShifts_zero (poly r : Word) : crcShifts poly 0 r = r := rfl

theorem crcShifts_succ (poly r : Word) (k : Nat) : crcShifts poly (k + 1) r = crcShifts poly k (crcShift poly r) := rfl

theorem crcShifts_add (poly r : Word) (j k : Nat) :
    crcShifts poly (j + k) r = crcShifts poly k (crcShifts poly j r) := by
  induction j generalizing r with
  | zero => simp
  | succ j ih => rw [Nat.succ_add, crcShifts_succ, ih, crcShifts_succ]

@[simp] theorem crcShift_zero (poly : Word) : crcShift poly 0 = 0 := by simp [crcShift]

@[simp] theorem crcShifts_of_zero (poly : Word) (k : Nat) : crcShifts poly k 0 = 0 := by
  induction k with
  | zero => rfl
  | succ k ih => rw [crcShifts_succ, crcShift_zero, ih]

/-- One shift is linear over XOR. -/
theorem crcShift_xor (poly a b : Word) : crcShift poly (a ^^^ b) = crcShift poly a ^^^ crcShift poly b := by
  unfold crcShift
  rw [BitVec.getLsbD_xor, BitVec.shiftLeft_xor_distrib]
  cases a.getLsbD 31 <;> cases b.getLsbD 31 <;> simp <;> ext i <;> simp <;>
    cases poly[i] <;> simp

theorem crcShifts_xor (poly a b : Word) (k : Nat) :
    crcShifts poly k (a ^^^ b) = crcShifts poly k a ^^^ crcShifts poly k b := by
  induction k generalizing a b with
  | zero => rfl
  | succ k ih => simp only [crcShifts_succ, crcShift_xor, ih]

/-- With POLY = 0 a shift is a plain shift (R167 a). -/
theorem crcShift_poly_zero (r : Word) : crcShift 0 r = r <<< 1 := by simp [crcShift]

theorem crcShifts_poly_zero (r : Word) (k : Nat) : crcShifts 0 k r = r <<< k := by
  induction k generalizing r with
  | zero => simp
  | succ k ih => rw [crcShifts_succ, crcShift_poly_zero, ih, ← BitVec.shiftLeft_add, Nat.add_comm]

/-- Eight shifts absorb the byte of an update linearly. -/
theorem CrcConf.update_eq (c : CrcConf) (r : Word) (b : Byte) :
    c.update r b = crcShifts c.poly 8 r ^^^ crcShifts c.poly 8 ((c.inByte b).setWidth 32 <<< 24) :=
  crcShifts_xor _ _ _ _

/-- Two registers fed the same byte differ by eight shifts of their difference. -/
theorem CrcConf.update_xor (c : CrcConf) (r r' : Word) (b : Byte) :
    c.update r b ^^^ c.update r' b = crcShifts c.poly 8 (r ^^^ r') := by
  rw [CrcConf.update_eq, CrcConf.update_eq, crcShifts_xor]
  ext i; simp [Bool.xor_comm, Bool.xor_left_comm]

theorem CrcConf.run_xor (c : CrcConf) (r r' : Word) (bs : List Byte) :
    c.run r bs ^^^ c.run r' bs = crcShifts c.poly (8 * bs.length) (r ^^^ r') := by
  induction bs generalizing r r' with
  | nil => simp
  | cons b bs ih =>
    rw [CrcConf.run_cons, CrcConf.run_cons, ih, CrcConf.update_xor, ← crcShifts_add, List.length_cons]
    congr 1; omega

theorem reflect_injective {n : Nat} {a b : BitVec n} (h : reflect a = reflect b) : a = b := by
  have := congrArg BitVec.reverse h
  simpa [reflect] using this

/-- `final` is injective: the checksum value determines the register. -/
theorem CrcConf.final_injective (c : CrcConf) {r r' : Word} (h : c.final r = c.final r') : r = r' := by
  unfold CrcConf.final at h
  have h1 := (BitVec.xor_left_inj _).mp h
  split at h1
  · exact reflect_injective h1
  · exact h1

end Sys2Proof.Machine
end

