-- ==== Sys2Proof/Laws/CrcPoly.lean ====
section
/-! SUPPORT. The shift register as polynomial arithmetic over GF(2): a shift multiplies by x modulo x^32 + POLY, so a single
set bit never shifts out to 0 unless POLY = 0 (spec 40_crc_engine.md R168: x^32 + POLY divides no monomial). -/

namespace Sys2Proof.Machine

open Polynomial

/-- The polynomial over GF(2) of a register: bit i is the coefficient of x^i. -/
noncomputable def toPoly (r : Word) : (ZMod 2)[X] := ∑ i ∈ Finset.range 32, if r.getLsbD i then X ^ i else 0

theorem toPoly_coeff (r : Word) (n : Nat) : (toPoly r).coeff n = if r.getLsbD n then 1 else 0 := by
  simp only [toPoly, finsetSum_coeff]
  have : ∀ i, (if r.getLsbD i then (X : (ZMod 2)[X]) ^ i else 0).coeff n = if n = i then (if r.getLsbD n then 1 else 0) else 0 := by
    intro i
    by_cases h : n = i
    · subst h; cases r.getLsbD n <;> simp
    · cases r.getLsbD i <;> simp [coeff_X_pow, h]
  simp only [this, Finset.sum_ite_eq, Finset.mem_range]
  split
  · rfl
  · rename_i h; rw [BitVec.getLsbD_of_ge _ _ (by omega)]; rfl

/-- One shift: multiply by x, and subtract the generator when a bit leaves. -/
theorem toPoly_crcShift (poly r : Word) :
    toPoly (crcShift poly r) = X * toPoly r + if r.getLsbD 31 then X ^ 32 + toPoly poly else 0 := by
  ext n
  have h2 : (1 : ZMod 2) + 1 = 0 := by decide
  cases n with
  | zero =>
    unfold crcShift
    cases hr : r.getLsbD 31
    · simp [toPoly_coeff]
    · simp [toPoly_coeff]
  | succ n =>
    unfold crcShift
    cases hr : r.getLsbD 31
    · simp only [Bool.false_eq_true, if_false, add_zero, coeff_X_mul, toPoly_coeff, BitVec.getLsbD_shiftLeft]
      by_cases hn : n + 1 < 32
      · simp [hn]
      · have : r.getLsbD n = false := by
          by_cases h31 : n = 31
          · subst h31; exact hr
          · exact BitVec.getLsbD_of_ge _ _ (by omega)
        simp [this, hn]
    · simp only [if_true, coeff_add, coeff_X_mul, toPoly_coeff, BitVec.getLsbD_xor, BitVec.getLsbD_shiftLeft, coeff_X_pow]
      by_cases hn : n + 1 < 32
      · have h32 : n + 1 ≠ 32 := by omega
        have hn' : decide (n + 1 < 32) = true := decide_eq_true hn
        simp only [hn', h32, if_false, zero_add, show decide (n + 1 < 1) = false from by simp, Nat.add_sub_cancel]
        cases r.getLsbD n <;> cases poly.getLsbD (n + 1) <;> simp [h2]
      · have hp : poly.getLsbD (n + 1) = false := BitVec.getLsbD_of_ge _ _ (by omega)
        by_cases h31 : n = 31
        · subst h31; simp only [hr, hp]; simp [h2]
        · have hrn : r.getLsbD n = false := BitVec.getLsbD_of_ge _ _ (by omega)
          have h32 : n + 1 ≠ 32 := by omega
          simp [hp, hrn, hn, h31]

/-- k shifts are multiplication by x^k modulo the generator. -/
theorem dvd_toPoly_crcShifts (poly : Word) (k : Nat) (r : Word) :
    X ^ 32 + toPoly poly ∣ toPoly (crcShifts poly k r) + X ^ k * toPoly r := by
  induction k generalizing r with
  | zero => simp only [crcShifts_zero, pow_zero, one_mul, CharTwo.add_self_eq_zero]; exact dvd_zero _
  | succ k ih =>
    have h := ih (crcShift poly r)
    rw [crcShifts_succ]
    rw [toPoly_crcShift, mul_add, ← mul_assoc, ← pow_succ, ← add_assoc] at h
    by_cases hr : r.getLsbD 31 = true
    · rw [if_pos hr] at h
      exact (dvd_add_left (Dvd.intro_left _ rfl)).mp h
    · rw [if_neg hr, mul_zero, add_zero] at h; exact h

/-- With POLY nonzero a single bit never becomes 0. -/
theorem crcShifts_bit_ne_zero {poly : Word} (hp : poly ≠ 0) {j : Nat} (hj : j < 32) (k : Nat) :
    crcShifts poly k (1#32 <<< j) ≠ 0 := by
  intro h0
  have h := dvd_toPoly_crcShifts poly k (1#32 <<< j)
  have hz : toPoly 0 = 0 := by ext n; rw [toPoly_coeff]; simp
  have hx : toPoly (1#32 <<< j) = X ^ j := by
    ext n; rw [toPoly_coeff, coeff_X_pow]
    simp only [BitVec.getLsbD_shiftLeft, BitVec.getLsbD_one]
    by_cases hn : n = j
    · subst hn
      simp [hj]
    · rw [if_neg hn, if_neg]
      intro h
      simp at h
      omega
  rw [h0, hz, zero_add, hx, ← pow_add] at h
  obtain ⟨i, hi, ha⟩ := (dvd_prime_pow (prime_X (R := ZMod 2)) _).mp h
  have hlt : (toPoly poly).degree < ((32 : ℕ) : WithBot ℕ) := by
    rw [degree_lt_iff_coeff_zero]
    intro m hm
    rw [toPoly_coeff, BitVec.getLsbD_of_ge _ _ hm]
    rfl
  have hm : (X ^ 32 + toPoly poly : (ZMod 2)[X]).Monic := monic_X_pow_add hlt
  have heq := eq_of_monic_of_associated hm (monic_X_pow i) ha
  have hd : i = 32 := by
    have := congrArg natDegree heq
    rw [natDegree_X_pow] at this
    rw [← this]
    rw [natDegree_add_eq_left_of_degree_lt (by rw [degree_X_pow]; exact hlt), natDegree_X_pow]
  subst hd
  have : toPoly poly = 0 := by simpa using heq
  apply hp
  apply BitVec.eq_of_getLsbD_eq
  intro n hn
  have := congrArg (fun q => q.coeff n) this
  simp only [toPoly_coeff, coeff_zero] at this
  cases hb : poly.getLsbD n
  · simp
  · simp [hb] at this

end Sys2Proof.Machine
end

