-- ==== Sys2Proof/Laws/Decode.lean ====
section
/-! SUPPORT. What the decoder can answer, one lemma per function: a register's offset and operation, a descriptor's, a
window access's. Later proofs cite these instead of unfolding the decoder. -/

namespace Sys2Proof

/-! ### Descriptor offsets (10_state.md R53, 30_encoding.md R121) -/

theorem descOffset_toNat (i : BitVec 8) (k : DescWord) :
    (descOffset i k).toNat =
      0x100 + 16 * i.toNat + 4 * (match k with | .hdr => 0 | .size => 1 | .crcStart => 2 | .crcLen => 3) := by
  have := i.isLt
  cases k <;> simp only [descOffset, BitVec.toNat_ofNat] <;> omega

theorem descAt_descOffset {p : Params} {i : BitVec 8} {k : DescWord} (h : i.toNat < p.ndesc) :
    descAt p (descOffset i k).toNat = some (i, k) := by
  have := i.isLt
  rw [descOffset_toNat]
  have hk : ∀ n, n < 4 → descWordAt ((0x100 + 16 * i.toNat + 4 * n) / 4) = descWordAt n := by
    intro n hn
    unfold descWordAt
    rw [show (0x100 + 16 * i.toNat + 4 * n) / 4 % 4 = n % 4 by omega]
  have hi : ∀ n, n < 4 → BitVec.ofNat 8 ((0x100 + 16 * i.toNat + 4 * n - 0x100) / 16) = i := by
    intro n hn
    apply BitVec.eq_of_toNat_eq
    rw [BitVec.toNat_ofNat]
    omega
  cases k <;> simp only [descAt] <;> rw [if_pos (by omega), hk _ (by omega), hi _ (by omega)] <;> rfl

theorem descAt_eq_some {p : Params} {a : Nat} {i : BitVec 8} {k : DescWord} (hp : p.ndesc ≤ 240) (ha : a % 4 = 0)
    (h : descAt p a = some (i, k)) :
    i.toNat < p.ndesc ∧ (descOffset i k).toNat = a := by
  unfold descAt at h
  split at h
  · rename_i hr
    injection h with h
    injection h with hi hk
    subst hi hk
    rw [descOffset_toNat]
    have hi : (BitVec.ofNat 8 ((a - 0x100) / 16)).toNat = (a - 0x100) / 16 := by
      rw [BitVec.toNat_ofNat]
      omega
    rw [hi]
    refine ⟨by omega, ?_⟩
    have h4 : a / 4 % 4 = 0 ∨ a / 4 % 4 = 1 ∨ a / 4 % 4 = 2 ∨ a / 4 % 4 = 3 := by omega
    unfold descWordAt
    rcases h4 with h4 | h4 | h4 | h4 <;> rw [h4] <;> simp only <;> omega
  · cases h

theorem descAt_eq_none {p : Params} {a : Nat} : descAt p a = none ↔ ¬ (0x100 ≤ a ∧ a < 0x100 + 16 * p.ndesc) := by
  unfold descAt
  split <;> simp_all

/-! ### The register space (20_memory.md R83) -/

/-- Every answer of the write decoder. -/
theorem decodeRegWrite_cases {p : Params} {a : Nat} {w : Word} {i : Instr} (h : decodeRegWrite p a w = some i) :
    (a = 0x000 ∧ i = .wrCtrl w) ∨ (a = 0x004 ∧ i = .wrStatus w) ∨ (a = 0x008 ∧ i = .wrCmd w) ∨
    (a = 0x00C ∧ i = .wrOperand .maxSize w) ∨ (a = 0x010 ∧ i = .wrOperand .frameBase w) ∨
    (a = 0x014 ∧ i = .wrOperand .blkStart w) ∨ (a = 0x018 ∧ i = .wrOperand .blkLen w) ∨
    (a = 0x01C ∧ i = .wrCrcConfig .poly w) ∨ (a = 0x020 ∧ i = .wrCrcConfig .init w) ∨
    (a = 0x024 ∧ i = .wrCrcConfig .xorout w) ∨ (a = 0x028 ∧ i = .wrCrcConfig .cfg w) ∨
    (a = 0x02C ∧ i = .wrCrcState w) ∨ (a = 0x034 ∧ i = .wrCrcData8 w) ∨ (a = 0x038 ∧ i = .wrCrcData32 w) ∨
    (∃ r : RoReg, a = r.offset.toNat ∧ i = .wrRo r w) ∨
    (∃ d k, descAt p a = some (d, k) ∧ i = .wrOperand (.desc d k) w) := by
  unfold decodeRegWrite at h
  split at h <;> first
    | (injection h with h; subst h; simp; done)
    | (injection h with h; subst h; simp only [reduceCtorEq, and_false, false_or, Instr.wrRo.injEq, and_true]
       exact .inl ⟨_, rfl, rfl⟩)
    | (obtain ⟨⟨d, k⟩, he, rfl⟩ := Option.map_eq_some_iff.mp h
       simp only [reduceCtorEq, and_false, exists_false, false_or]
       simp [he])

/-- Every answer of the read decoder. -/
theorem decodeRegRead_cases {p : Params} {a : Nat} {i : Instr} (h : decodeRegRead p a = some i) :
    (a = 0x02C ∧ i = .rdCrcState) ∨ (a = 0x030 ∧ i = .rdCrcResult) ∨
    (∃ r : ReadReg, (∀ d k, r ≠ .desc d k) ∧ a = r.offset.toNat ∧ i = .rdReg r) ∨
    (∃ d k, descAt p a = some (d, k) ∧ i = .rdReg (.desc d k)) := by
  unfold decodeRegRead at h
  split at h <;> first
    | (injection h with h; subst h; exact .inr (.inr (.inl ⟨_, by simp, rfl, rfl⟩)))
    | (injection h with h; subst h; simp)
    | (obtain ⟨⟨d, k⟩, he, rfl⟩ := Option.map_eq_some_iff.mp h
       exact .inr (.inr (.inr ⟨d, k, he, rfl⟩)))

/-- Every answer of the transaction decoder that is no rejection. -/
theorem decodeTxn_cases {p : Params} {t : BusTxn} {i : Instr} (h : decodeTxn p t = .ok i) :
    (t.addr.toNat < 0x10000 ∧ t.size = 2 ∧ t.addr.toNat % 4 = 0 ∧ t.we = true ∧
      decodeRegWrite p t.addr.toNat t.wdata = some i) ∨
    (t.addr.toNat < 0x10000 ∧ t.size = 2 ∧ t.addr.toNat % 4 = 0 ∧ t.we = false ∧
      decodeRegRead p t.addr.toNat = some i) ∨
    (0x10000 ≤ t.addr.toNat ∧ ∃ sz, sizeOfField t.size = some sz ∧ inWindow p sz (t.addr.setWidth 16) ∧
      i = if t.we then .bufWr sz (t.addr.setWidth 16) t.wdata else .bufRd sz (t.addr.setWidth 16)) := by
  unfold decodeTxn at h
  split at h
  · rename_i ha
    unfold decodeRegister at h
    split at h
    · cases h
    · rename_i hs
      split at h
      · cases h
      · rename_i hm
        split at h
        · rename_i j hj
          injection h with h
          subst h
          split at hj
          · rename_i hw
            exact .inl ⟨ha, not_not.mp hs, not_not.mp hm, hw, hj⟩
          · rename_i hw
            exact .inr (.inl ⟨ha, not_not.mp hs, not_not.mp hm, by simpa using hw, hj⟩)
        · cases h
  · rename_i ha
    unfold decodeWindow at h
    split at h
    · cases h
    · rename_i sz hsz
      simp only at h
      split at h
      · cases h
      · rename_i hm
        split at h
        · cases h
        · rename_i hb
          injection h with h
          exact .inr (.inr ⟨by omega, sz, hsz, ⟨not_not.mp hm, not_lt.mp hb⟩, h.symm⟩)

/-- A 4-byte write at an aligned register-space offset. -/
theorem decodeTxn_write {p : Params} {a : Addr} {w : Word} {i : Instr} (ha : a.toNat < 0x10000) (hm : a.toNat % 4 = 0)
    (h : decodeRegWrite p a.toNat w = some i) :
    decodeTxn p { we := true, addr := a, size := 2, wdata := w } = .ok i := by
  simp [decodeTxn, decodeRegister, ha, hm, h]

/-- A 4-byte read at an aligned register-space offset. -/
theorem decodeTxn_read {p : Params} {a : Addr} {w : Word} {i : Instr} (ha : a.toNat < 0x10000) (hm : a.toNat % 4 = 0)
    (h : decodeRegRead p a.toNat = some i) :
    decodeTxn p { we := false, addr := a, size := 2, wdata := w } = .ok i := by
  simp [decodeTxn, decodeRegister, ha, hm, h]

/-- A 4-byte access at a descriptor word's offset. -/
theorem decodeTxn_desc {p : Params} {d : BitVec 8} {k : DescWord} (h : d.toNat < p.ndesc) (we : Bool) (w : Word) :
    decodeTxn p { we := we, addr := descOffset d k, size := 2, wdata := w } =
      .ok (if we then .wrOperand (.desc d k) w else .rdReg (.desc d k)) := by
  have hn := descOffset_toNat d k
  have hlt := d.isLt
  have hr : 0x100 ≤ (descOffset d k).toNat ∧ (descOffset d k).toNat < 0x10000 ∧ (descOffset d k).toNat % 4 = 0 := by
    cases k <;> simp only at hn <;> omega
  have hd := descAt_descOffset (k := k) h
  cases we
  · refine decodeTxn_read hr.2.1 hr.2.2 ?_
    generalize (descOffset d k).toNat = a at *
    unfold decodeRegRead
    split <;> first | omega | rw [hd]; rfl
  · refine decodeTxn_write hr.2.1 hr.2.2 ?_
    generalize (descOffset d k).toNat = a at *
    unfold decodeRegWrite
    split <;> first | omega | rw [hd]; rfl

/-- A transaction decodes to a host operation, never to a command of the engine. -/
theorem decodeTxn_ne_command {p : Params} {t : BusTxn} {i : Instr} (h : decodeTxn p t = .ok i) (w : Word) :
    i ≠ decodeCommand w := by
  have hc : ∀ j : Instr, j = decodeCommand w → j = .nop ∨ j = .crcInit ∨ (∃ b, j = .crcBlock b) ∨
      (∃ d, j = .encodeFrame d) ∨ (∃ d, j = .decodeFrame d) ∨ j = .reserved5 ∨ j = .reserved6 ∨ j = .reserved7 ∨
      j = .reserved8 ∨ j = .reserved9 ∨ j = .reservedA ∨ j = .reservedB ∨ j = .reservedC ∨ j = .reservedD ∨
      j = .reservedE ∨ j = .reservedF := by
    intro j hj
    subst hj
    unfold decodeCommand
    split <;> simp
  intro hi
  have := hc i hi
  rcases decodeTxn_cases h with ⟨-, -, -, -, h⟩ | ⟨-, -, -, -, h⟩ | ⟨-, sz, -, -, h⟩
  · have hw := decodeRegWrite_cases h
    generalize decodeCommand w = j at *
    rcases this with rfl | rfl | ⟨_, rfl⟩ | ⟨_, rfl⟩ | ⟨_, rfl⟩ | rfl | rfl | rfl | rfl | rfl | rfl | rfl | rfl | rfl |
      rfl | rfl <;> simp at hw
  · have hr := decodeRegRead_cases h
    generalize decodeCommand w = j at *
    rcases this with rfl | rfl | ⟨_, rfl⟩ | ⟨_, rfl⟩ | ⟨_, rfl⟩ | rfl | rfl | rfl | rfl | rfl | rfl | rfl | rfl | rfl |
      rfl | rfl <;> simp at hr
  · generalize decodeCommand w = j at *
    subst h
    subst hi
    cases hw : t.we <;> simp [hw] at this

/-- The width a `size` signal names is its own encoding. -/
theorem sizeOfField_eq_some {s : BitVec 2} {sz : AccessSize} : sizeOfField s = some sz ↔ s = sz.field := by
  revert s sz
  have : ∀ (s : BitVec 2), ∀ sz, sizeOfField s = some sz ↔ s = sz.field := by
    intro s sz
    cases sz <;> revert s <;> decide
  exact fun {s sz} => this s sz

@[simp] theorem sizeOfField_field (sz : AccessSize) : sizeOfField sz.field = some sz := sizeOfField_eq_some.mpr rfl

theorem sizeOfField_bytes {s : BitVec 2} {sz : AccessSize} (h : sizeOfField s = some sz) : sz.bytes = 2 ^ s.toNat := by
  rw [sizeOfField_eq_some.mp h]
  cases sz <;> rfl

/-! ### The buffer window (20_memory.md R80, R84) -/

theorem windowAddr_toNat (o : BitVec 16) : (windowAddr o).toNat = 0x10000 + o.toNat := by
  have := o.isLt
  simp only [windowAddr, BitVec.toNat_ofNat]
  omega

@[simp] theorem windowAddr_setWidth (o : BitVec 16) : (windowAddr o).setWidth 16 = o := by
  have := o.isLt
  apply BitVec.eq_of_toNat_eq
  rw [BitVec.toNat_setWidth, windowAddr_toNat]
  omega

theorem setWidth_windowAddr {a : Addr} (h : 0x10000 ≤ a.toNat) :
    (a.setWidth 16).toNat = a.toNat - 0x10000 ∧ windowAddr (a.setWidth 16) = a := by
  have := a.isLt
  have h1 : (a.setWidth 16).toNat = a.toNat - 0x10000 := by rw [BitVec.toNat_setWidth]; omega
  refine ⟨h1, BitVec.eq_of_toNat_eq ?_⟩
  rw [windowAddr_toNat, h1]
  omega

/-- A window access of a legal width, aligned and inside the buffer. -/
theorem decodeTxn_window {p : Params} {sz : AccessSize} {o : BitVec 16} (h : inWindow p sz o) (we : Bool) (w : Word) :
    decodeTxn p { we := we, addr := windowAddr o, size := sz.field, wdata := w } =
      .ok (if we then .bufWr sz o w else .bufRd sz o) := by
  unfold decodeTxn decodeWindow
  rw [if_neg (by simp only [windowAddr_toNat]; omega)]
  simp only [sizeOfField_field, windowAddr_setWidth]
  rw [if_neg (not_not.mpr h.1), if_neg (not_lt.mpr h.2)]

/-! ### The command word (30_encoding.md R110) -/

@[simp] theorem cmdOp_commandWord (op : BitVec 4) (b : Bool) (d : BitVec 8) : cmdOp (commandWord op b d) = op := by
  ext i h
  simp only [cmdOp, commandWord, BitVec.getElem_extractLsb', BitVec.getLsbD_append]
  simp [h, BitVec.getLsbD_eq_getElem]

@[simp] theorem cmdSeed_commandWord (op : BitVec 4) (b : Bool) (d : BitVec 8) : cmdSeed (commandWord op b d) = b := by
  simp only [cmdSeed, commandWord, BitVec.getLsbD_append]
  simp

@[simp] theorem cmdDesc_commandWord (op : BitVec 4) (b : Bool) (d : BitVec 8) : cmdDesc (commandWord op b d) = d := by
  simp only [cmdDesc, commandWord]
  ext i h
  simp only [BitVec.getElem_extractLsb', BitVec.getLsbD_append]
  have h1 : ¬ 8 + i < 4 := by omega
  have h2 : ¬ 8 + i - 4 < 1 := by omega
  have h3 : ¬ 8 + i - 4 - 1 < 3 := by omega
  have h4 : 8 + i - 4 - 1 - 3 = i := by omega
  simp [h1, h2, h3, h4, h, BitVec.getLsbD_eq_getElem]

end Sys2Proof
end

