-- ==== Sys2Proof/Laws/Memory.lean ====
section
/-! SUPPORT. Laws of the frame buffer: read after write, after erase, consecutive bytes, the canonical form. -/

namespace Sys2Proof.Machine

@[simp] theorem Memory.read?_nil (a : Nat) : Memory.read? [] a = none := rfl

@[simp] theorem Memory.read?_cons (b : Nat) (v : Byte) (m : Memory) (a : Nat) :
    Memory.read? ((b, v) :: m) a = if a = b then some v else Memory.read? m a := rfl

/-- Reading after writing one byte: the byte written there, the old byte elsewhere. -/
theorem Memory.read?_write (m : Memory) (a : Nat) (v : Byte) (b : Nat) :
    (m.write a v).read? b = if b = a then some v else m.read? b := by
  induction m with
  | nil => simp [Memory.write]
  | cons c m ih =>
    obtain ⟨x, u⟩ := c
    simp only [Memory.write]
    split
    · simp
    · split
      · subst_vars
        by_cases h : b = x <;> simp [h]
      · rename_i h1 h2
        simp only [Memory.read?_cons, ih]
        by_cases hb : b = a
        · simp [hb, h2]
        · simp [hb]

@[simp] theorem Memory.read?_write_same (m : Memory) (a : Nat) (v : Byte) : (m.write a v).read? a = some v := by
  simp [Memory.read?_write]

theorem Memory.read?_write_other (m : Memory) {a b : Nat} (v : Byte) (h : b ≠ a) :
    (m.write a v).read? b = m.read? b := by
  simp [Memory.read?_write, h]

/-- Reading after writing consecutive bytes. -/
theorem Memory.read?_writeBytes (vs : List Byte) (m : Memory) (a b : Nat) :
    (m.writeBytes a vs).read? b =
      if a ≤ b ∧ b < a + vs.length then vs[b - a]? else m.read? b := by
  induction vs generalizing m a with
  | nil =>
    simp only [Memory.writeBytes, List.length_nil]
    rw [if_neg (by omega)]
  | cons v vs ih =>
    simp only [Memory.writeBytes, ih, Memory.read?_write, List.length_cons]
    by_cases h1 : a + 1 ≤ b ∧ b < a + 1 + vs.length
    · have h2 : a ≤ b ∧ b < a + (vs.length + 1) := by omega
      have h3 : b - a = (b - (a + 1)) + 1 := by omega
      rw [if_pos h1, if_pos h2, h3, List.getElem?_cons_succ]
    · rw [if_neg h1]
      by_cases h2 : b = a
      · subst h2; simp
      · have h3 : ¬ (a ≤ b ∧ b < a + (vs.length + 1)) := by omega
        rw [if_neg h2, if_neg h3]

theorem Memory.read?_writeBytes_outside (vs : List Byte) (m : Memory) {a b : Nat}
    (h : b < a ∨ a + vs.length ≤ b) : (m.writeBytes a vs).read? b = m.read? b := by
  rw [Memory.read?_writeBytes, if_neg (by omega)]

theorem Memory.read?_writeBytes_inside (vs : List Byte) (m : Memory) (a : Nat) {k : Nat} (h : k < vs.length) :
    (m.writeBytes a vs).read? (a + k) = vs[k]? := by
  rw [Memory.read?_writeBytes, if_pos (by omega), Nat.add_sub_cancel_left]

/-- Reading after erasing: unwritten in the range, the old byte elsewhere. -/
theorem Memory.read?_erase (m : Memory) (a n b : Nat) :
    (m.erase a n).read? b = if a ≤ b ∧ b < a + n then none else m.read? b := by
  induction m with
  | nil => simp [Memory.erase]
  | cons c m ih =>
    obtain ⟨x, u⟩ := c
    simp only [Memory.erase] at ih ⊢
    rw [List.filter_cons]
    by_cases hx : a ≤ x ∧ x < a + n
    · have : (!(decide (a ≤ x) && decide (x < a + n))) = false := by
        simp [hx]
      simp only [this, Bool.false_eq_true, if_false, ih, Memory.read?_cons]
      by_cases hb : b = x
      · subst hb; simp [hx]
      · simp [hb]
    · have : (!(decide (a ≤ x) && decide (x < a + n))) = true := by
        simp; omega
      simp only [this, if_true, Memory.read?_cons, ih]
      by_cases hb : b = x
      · subst hb; simp [hx]
      · simp [hb]

theorem Memory.read?_erase_inside (m : Memory) {a n b : Nat} (h : a ≤ b ∧ b < a + n) :
    (m.erase a n).read? b = none := by
  rw [Memory.read?_erase, if_pos h]

theorem Memory.read?_erase_outside (m : Memory) {a n b : Nat} (h : b < a ∨ a + n ≤ b) :
    (m.erase a n).read? b = m.read? b := by
  rw [Memory.read?_erase, if_neg (by omega)]

/-- Erasing more never writes a byte. -/
theorem Memory.read?_erase_none {m : Memory} {a n b : Nat} (h : m.read? b = none) : (m.erase a n).read? b = none := by
  rw [Memory.read?_erase, h, ite_self]

/-! ### Consecutive bytes -/

/-- Reading n bytes succeeds with exactly the bytes stored there. -/
theorem Memory.readBytes_eq_ok (m : Memory) (n a : Nat) (bs : List Byte) :
    m.readBytes a n = .ok bs ↔ bs.length = n ∧ ∀ k < n, m.read? (a + k) = bs[k]? := by
  induction n generalizing a bs with
  | zero =>
    simp only [Memory.readBytes, Except.ok.injEq, Nat.not_lt_zero, false_implies, implies_true, and_true]
    exact ⟨fun h => h ▸ rfl, fun h => (List.length_eq_zero_iff.mp h).symm⟩
  | succ n ih =>
    simp only [Memory.readBytes]
    constructor
    · intro h
      split at h
      · cases h
      · rename_i v hv
        split at h
        · cases h
        · rename_i vs hvs
          injection h with h
          subst h
          obtain ⟨hl, hk⟩ := (ih (a + 1) vs).mp hvs
          refine ⟨by simp [hl], fun k hkn => ?_⟩
          cases k with
          | zero => simpa using hv
          | succ k =>
            have := hk k (by omega)
            rw [List.getElem?_cons_succ, ← this]
            congr 1; omega
    · rintro ⟨hl, hk⟩
      cases bs with
      | nil => simp at hl
      | cons v vs =>
        have hv : m.read? a = some v := by simpa using hk 0 (by omega)
        have hvs : m.readBytes (a + 1) n = .ok vs := by
          refine (ih (a + 1) vs).mpr ⟨by simpa using hl, fun k hkn => ?_⟩
          have := hk (k + 1) (by omega)
          rw [List.getElem?_cons_succ] at this
          rw [← this]; congr 1; omega
        simp [hv, hvs]

/-- Reading n bytes fails exactly at the lowest unwritten offset among them. -/
theorem Memory.readBytes_eq_error (m : Memory) (n a o : Nat) :
    m.readBytes a n = .error o ↔
      ∃ k < n, o = a + k ∧ m.read? o = none ∧ ∀ j < k, (m.read? (a + j)).isSome = true := by
  induction n generalizing a with
  | zero => simp [Memory.readBytes]
  | succ n ih =>
    simp only [Memory.readBytes]
    constructor
    · intro h
      split at h
      · rename_i hv
        injection h with h
        subst h
        exact ⟨0, by omega, rfl, hv, by simp⟩
      · rename_i v hv
        split at h
        · rename_i e he
          injection h with h
          subst h
          obtain ⟨k, hk, ho, hn, hj⟩ := (ih (a + 1)).mp he
          refine ⟨k + 1, by omega, by omega, hn, fun j hjk => ?_⟩
          cases j with
          | zero => simp [hv]
          | succ j => have := hj j (by omega); rwa [show a + (j + 1) = a + 1 + j by omega]
        · cases h
    · rintro ⟨k, hk, ho, hn, hj⟩
      cases k with
      | zero => rw [ho, Nat.add_zero] at hn; simp [hn, ho]
      | succ k =>
        have h0 := hj 0 (by omega)
        obtain ⟨v, hv⟩ := Option.isSome_iff_exists.mp h0
        have he : m.readBytes (a + 1) n = .error o := by
          refine (ih (a + 1)).mpr ⟨k, by omega, by omega, hn, fun j hjk => ?_⟩
          have := hj (j + 1) (by omega)
          rwa [show a + (j + 1) = a + 1 + j by omega] at this
        simp at hv
        simp [hv, he]

/-- Reading n bytes depends on those bytes alone. -/
theorem Memory.readBytes_congr {m m' : Memory} {n a : Nat}
    (h : ∀ k < n, m.read? (a + k) = m'.read? (a + k)) : m.readBytes a n = m'.readBytes a n := by
  induction n generalizing a with
  | zero => rfl
  | succ n ih =>
    have h0 := h 0 (by omega)
    simp only [Nat.add_zero] at h0
    have h1 : m.readBytes (a + 1) n = m'.readBytes (a + 1) n :=
      ih fun k hk => by have := h (k + 1) (by omega); rwa [show a + (k + 1) = a + 1 + k by omega] at this
    simp only [Memory.readBytes, h0, h1]

/-- Bytes that are all written can be read. -/
theorem Memory.readBytes_of_written (m : Memory) (a n : Nat)
    (h : ∀ k < n, (m.read? (a + k)).isSome = true) :
    ∃ bs, m.readBytes a n = .ok bs ∧ bs.length = n ∧ ∀ k < n, m.read? (a + k) = bs[k]? := by
  cases hr : m.readBytes a n with
  | error o =>
    obtain ⟨k, hk, ho, hn, -⟩ := (m.readBytes_eq_error n a o).mp hr
    have := h k hk
    rw [← ho, hn] at this
    cases this
  | ok bs => exact ⟨bs, rfl, (m.readBytes_eq_ok n a bs).mp hr⟩

/-- Reading four bytes succeeds with exactly the bytes stored there. -/
theorem Memory.readFour_eq_ok (m : Memory) (a : Nat) (b0 b1 b2 b3 : Byte) :
    m.readFour a = .ok (b0, b1, b2, b3) ↔
      m.read? a = some b0 ∧ m.read? (a + 1) = some b1 ∧ m.read? (a + 2) = some b2 ∧ m.read? (a + 3) = some b3 := by
  unfold Memory.readFour
  split <;> simp_all

/-! ### The canonical form -/

theorem Memory.wf_nil : Memory.wf [] := List.Pairwise.nil

theorem Memory.mem_write {m : Memory} {a : Nat} {v : Byte} {c : Host.Cell} (h : c ∈ m.write a v) :
    c = (a, v) ∨ c ∈ m := by
  induction m with
  | nil => simpa [Memory.write] using h
  | cons x m ih =>
    obtain ⟨b, u⟩ := x
    simp only [Memory.write] at h
    split at h
    · simpa using h
    · split at h
      · rcases List.mem_cons.mp h with h | h
        · exact .inl h
        · exact .inr (List.mem_cons_of_mem _ h)
      · rcases List.mem_cons.mp h with h | h
        · exact .inr (h ▸ List.mem_cons_self)
        · exact (ih h).imp id (List.mem_cons_of_mem _)

theorem Memory.wf_write {m : Memory} (h : m.wf) (a : Nat) (v : Byte) : (m.write a v).wf := by
  induction m with
  | nil => simp [Memory.write, Memory.wf]
  | cons x m ih =>
    obtain ⟨b, u⟩ := x
    obtain ⟨hx, hm⟩ := List.pairwise_cons.mp h
    simp only [Memory.write]
    split
    · rename_i hab
      refine List.pairwise_cons.mpr ⟨fun c hc => ?_, h⟩
      rcases List.mem_cons.mp hc with rfl | hc
      · exact hab
      · exact lt_trans hab (hx c hc)
    · split
      · rename_i _ hab
        subst hab
        exact List.pairwise_cons.mpr ⟨hx, hm⟩
      · rename_i h1 h2
        refine List.pairwise_cons.mpr ⟨fun c hc => ?_, ih hm⟩
        rcases Memory.mem_write hc with rfl | hc
        · show b < a; omega
        · exact hx c hc

theorem Memory.wf_writeBytes (vs : List Byte) {m : Memory} (h : m.wf) (a : Nat) : (m.writeBytes a vs).wf := by
  induction vs generalizing m a with
  | nil => exact h
  | cons v vs ih => exact ih (Memory.wf_write h a v) (a + 1)

theorem Memory.mem_writeBytes (vs : List Byte) {m : Memory} {a : Nat} {c : Host.Cell}
    (h : c ∈ m.writeBytes a vs) : (a ≤ c.1 ∧ c.1 < a + vs.length) ∨ c ∈ m := by
  induction vs generalizing m a with
  | nil => exact .inr h
  | cons v vs ih =>
    rcases ih h with h | h
    · left; simp only [List.length_cons]; omega
    · rcases Memory.mem_write h with rfl | h
      · left; simp
      · exact .inr h

theorem Memory.wf_erase {m : Memory} (h : m.wf) (a n : Nat) : (m.erase a n).wf := List.Pairwise.filter _ h

theorem Memory.mem_erase {m : Memory} {a n : Nat} {c : Host.Cell} (h : c ∈ m.erase a n) : c ∈ m :=
  List.mem_of_mem_filter h

/-- A canonical memory reads an unlisted offset below its first entry as unwritten. -/
theorem Memory.read?_eq_none_of_lt {m : Memory} {a : Nat} (h : ∀ c ∈ m, a < c.1) : m.read? a = none := by
  induction m with
  | nil => rfl
  | cons c m ih =>
    obtain ⟨b, u⟩ := c
    have hb : a < b := h (b, u) List.mem_cons_self
    rw [Memory.read?_cons, if_neg (by omega)]
    exact ih fun c hc => h c (List.mem_cons_of_mem _ hc)

/-- Equal memories are equal data: two canonical memories that read alike are the same list. -/
theorem Memory.ext_of_wf {m m' : Memory} (h : m.wf) (h' : m'.wf) (heq : ∀ a, m.read? a = m'.read? a) : m = m' := by
  induction m generalizing m' with
  | nil =>
    cases m' with
    | nil => rfl
    | cons c m' => obtain ⟨b, u⟩ := c; simpa using heq b
  | cons c m ih =>
    obtain ⟨b, u⟩ := c
    obtain ⟨hx, hm⟩ := List.pairwise_cons.mp h
    cases m' with
    | nil => simpa using heq b
    | cons c' m' =>
      obtain ⟨b', u'⟩ := c'
      obtain ⟨hx', hm'⟩ := List.pairwise_cons.mp h'
      have hbb : b = b' := by
        rcases lt_trichotomy b b' with hlt | he | hlt
        · have h1 := heq b
          rw [Memory.read?_eq_none_of_lt (m := (b', u') :: m') (a := b)] at h1
          · simp at h1
          · intro c hc
            rcases List.mem_cons.mp hc with rfl | hc
            · exact hlt
            · exact lt_trans hlt (hx' c hc)
        · exact he
        · have h1 := heq b'
          rw [Memory.read?_eq_none_of_lt (m := (b, u) :: m) (a := b')] at h1
          · simp at h1
          · intro c hc
            rcases List.mem_cons.mp hc with rfl | hc
            · exact hlt
            · exact lt_trans hlt (hx c hc)
      subst hbb
      have huu : u = u' := by simpa using heq b
      subst huu
      congr 1
      refine ih hm hm' fun a => ?_
      by_cases ha : a = b
      · subst ha
        rw [Memory.read?_eq_none_of_lt hx, Memory.read?_eq_none_of_lt hx']
      · simpa [ha] using heq a

end Sys2Proof.Machine
end

