-- ==== Sys2Proof/Laws/State.lean ====
section
/-! SUPPORT. One lemma per field for the shared state updates, true by rfl, so that later proofs do not unfold them. -/

namespace Sys2Proof.Machine

/-! ### complete (42_control.md R233) -/

@[simp] theorem State.complete_ie (s : State) (code : ResultCode) : (s.complete code).ie = s.ie := rfl
@[simp] theorem State.complete_status (s : State) (code : ResultCode) : (s.complete code).status = s.status.completed code := rfl
@[simp] theorem State.complete_maxSize (s : State) (code : ResultCode) : (s.complete code).maxSize = s.maxSize := rfl
@[simp] theorem State.complete_frameBase (s : State) (code : ResultCode) : (s.complete code).frameBase = s.frameBase := rfl
@[simp] theorem State.complete_blkStart (s : State) (code : ResultCode) : (s.complete code).blkStart = s.blkStart := rfl
@[simp] theorem State.complete_blkLen (s : State) (code : ResultCode) : (s.complete code).blkLen = s.blkLen := rfl
@[simp] theorem State.complete_crcPoly (s : State) (code : ResultCode) : (s.complete code).crcPoly = s.crcPoly := rfl
@[simp] theorem State.complete_crcInit (s : State) (code : ResultCode) : (s.complete code).crcInit = s.crcInit := rfl
@[simp] theorem State.complete_crcXorout (s : State) (code : ResultCode) : (s.complete code).crcXorout = s.crcXorout := rfl
@[simp] theorem State.complete_crcCfg (s : State) (code : ResultCode) : (s.complete code).crcCfg = s.crcCfg := rfl
@[simp] theorem State.complete_crcState (s : State) (code : ResultCode) : (s.complete code).crcState = s.crcState := rfl
@[simp] theorem State.complete_rxFlag (s : State) (code : ResultCode) : (s.complete code).rxFlag = s.rxFlag := rfl
@[simp] theorem State.complete_rxLen (s : State) (code : ResultCode) : (s.complete code).rxLen = s.rxLen := rfl
@[simp] theorem State.complete_rxType (s : State) (code : ResultCode) : (s.complete code).rxType = s.rxType := rfl
@[simp] theorem State.complete_rxCrc (s : State) (code : ResultCode) : (s.complete code).rxCrc = s.rxCrc := rfl
@[simp] theorem State.complete_calcCrc (s : State) (code : ResultCode) : (s.complete code).calcCrc = s.calcCrc := rfl
@[simp] theorem State.complete_descs (s : State) (code : ResultCode) : (s.complete code).descs = s.descs := rfl
@[simp] theorem State.complete_buf (s : State) (code : ResultCode) : (s.complete code).buf = s.buf := rfl
@[simp] theorem State.complete_pending (s : State) (code : ResultCode) : (s.complete code).pending = none := rfl
@[simp] theorem State.complete_params (s : State) (code : ResultCode) : (s.complete code).params = s.params := rfl
@[simp] theorem State.complete_events (s : State) (code : ResultCode) : (s.complete code).events = s.events := rfl
@[simp] theorem State.complete_rdata (s : State) (code : ResultCode) : (s.complete code).rdata = s.rdata := rfl
@[simp] theorem State.complete_draws (s : State) (code : ResultCode) : (s.complete code).draws = s.draws := rfl

@[simp] theorem Status.completed_done (st : Status) (c : ResultCode) : (st.completed c).done = true := rfl
@[simp] theorem Status.completed_err (st : Status) (c : ResultCode) :
    (st.completed c).err = (st.err || decide (c ≠ .ok)) := rfl
@[simp] theorem Status.completed_result (st : Status) (c : ResultCode) : (st.completed c).result = c := rfl
@[simp] theorem Status.completed_overrun (st : Status) (c : ResultCode) : (st.completed c).overrun = st.overrun := rfl
@[simp] theorem Status.completed_flagOk (st : Status) (c : ResultCode) : (st.completed c).flagOk = st.flagOk := rfl
@[simp] theorem Status.completed_typeOk (st : Status) (c : ResultCode) : (st.completed c).typeOk = st.typeOk := rfl

/-! ### resetRegisters, powerOnReset and softReset (70_reset_and_hazards.md R290, R292): what they keep -/

@[simp] theorem State.resetRegisters_ie (s : State) : (s.resetRegisters).ie = State.reset.ie := rfl
@[simp] theorem State.resetRegisters_status (s : State) : (s.resetRegisters).status = State.reset.status := rfl
@[simp] theorem State.resetRegisters_maxSize (s : State) : (s.resetRegisters).maxSize = State.reset.maxSize := rfl
@[simp] theorem State.resetRegisters_frameBase (s : State) : (s.resetRegisters).frameBase = State.reset.frameBase := rfl
@[simp] theorem State.resetRegisters_blkStart (s : State) : (s.resetRegisters).blkStart = State.reset.blkStart := rfl
@[simp] theorem State.resetRegisters_blkLen (s : State) : (s.resetRegisters).blkLen = State.reset.blkLen := rfl
@[simp] theorem State.resetRegisters_crcPoly (s : State) : (s.resetRegisters).crcPoly = State.reset.crcPoly := rfl
@[simp] theorem State.resetRegisters_crcInit (s : State) : (s.resetRegisters).crcInit = State.reset.crcInit := rfl
@[simp] theorem State.resetRegisters_crcXorout (s : State) : (s.resetRegisters).crcXorout = State.reset.crcXorout := rfl
@[simp] theorem State.resetRegisters_crcCfg (s : State) : (s.resetRegisters).crcCfg = State.reset.crcCfg := rfl
@[simp] theorem State.resetRegisters_crcState (s : State) : (s.resetRegisters).crcState = State.reset.crcState := rfl
@[simp] theorem State.resetRegisters_rxFlag (s : State) : (s.resetRegisters).rxFlag = State.reset.rxFlag := rfl
@[simp] theorem State.resetRegisters_rxLen (s : State) : (s.resetRegisters).rxLen = State.reset.rxLen := rfl
@[simp] theorem State.resetRegisters_rxType (s : State) : (s.resetRegisters).rxType = State.reset.rxType := rfl
@[simp] theorem State.resetRegisters_rxCrc (s : State) : (s.resetRegisters).rxCrc = State.reset.rxCrc := rfl
@[simp] theorem State.resetRegisters_calcCrc (s : State) : (s.resetRegisters).calcCrc = State.reset.calcCrc := rfl
@[simp] theorem State.resetRegisters_descs (s : State) : (s.resetRegisters).descs = List.replicate s.params.ndesc Desc.zero := rfl
@[simp] theorem State.resetRegisters_buf (s : State) : (s.resetRegisters).buf = s.buf := rfl
@[simp] theorem State.resetRegisters_pending (s : State) : (s.resetRegisters).pending = State.reset.pending := rfl
@[simp] theorem State.resetRegisters_params (s : State) : (s.resetRegisters).params = s.params := rfl
@[simp] theorem State.resetRegisters_events (s : State) : (s.resetRegisters).events = s.events := rfl
@[simp] theorem State.resetRegisters_rdata (s : State) : (s.resetRegisters).rdata = s.rdata := rfl
@[simp] theorem State.resetRegisters_draws (s : State) : (s.resetRegisters).draws = s.draws := rfl
@[simp] theorem State.powerOnReset_ie (s : State) : (s.powerOnReset).ie = State.reset.ie := rfl
@[simp] theorem State.powerOnReset_status (s : State) : (s.powerOnReset).status = State.reset.status := rfl
@[simp] theorem State.powerOnReset_maxSize (s : State) : (s.powerOnReset).maxSize = State.reset.maxSize := rfl
@[simp] theorem State.powerOnReset_frameBase (s : State) : (s.powerOnReset).frameBase = State.reset.frameBase := rfl
@[simp] theorem State.powerOnReset_blkStart (s : State) : (s.powerOnReset).blkStart = State.reset.blkStart := rfl
@[simp] theorem State.powerOnReset_blkLen (s : State) : (s.powerOnReset).blkLen = State.reset.blkLen := rfl
@[simp] theorem State.powerOnReset_crcPoly (s : State) : (s.powerOnReset).crcPoly = State.reset.crcPoly := rfl
@[simp] theorem State.powerOnReset_crcInit (s : State) : (s.powerOnReset).crcInit = State.reset.crcInit := rfl
@[simp] theorem State.powerOnReset_crcXorout (s : State) : (s.powerOnReset).crcXorout = State.reset.crcXorout := rfl
@[simp] theorem State.powerOnReset_crcCfg (s : State) : (s.powerOnReset).crcCfg = State.reset.crcCfg := rfl
@[simp] theorem State.powerOnReset_crcState (s : State) : (s.powerOnReset).crcState = State.reset.crcState := rfl
@[simp] theorem State.powerOnReset_rxFlag (s : State) : (s.powerOnReset).rxFlag = State.reset.rxFlag := rfl
@[simp] theorem State.powerOnReset_rxLen (s : State) : (s.powerOnReset).rxLen = State.reset.rxLen := rfl
@[simp] theorem State.powerOnReset_rxType (s : State) : (s.powerOnReset).rxType = State.reset.rxType := rfl
@[simp] theorem State.powerOnReset_rxCrc (s : State) : (s.powerOnReset).rxCrc = State.reset.rxCrc := rfl
@[simp] theorem State.powerOnReset_calcCrc (s : State) : (s.powerOnReset).calcCrc = State.reset.calcCrc := rfl
@[simp] theorem State.powerOnReset_descs (s : State) : (s.powerOnReset).descs = List.replicate s.params.ndesc Desc.zero := rfl
@[simp] theorem State.powerOnReset_buf (s : State) : (s.powerOnReset).buf = [] := rfl
@[simp] theorem State.powerOnReset_pending (s : State) : (s.powerOnReset).pending = State.reset.pending := rfl
@[simp] theorem State.powerOnReset_params (s : State) : (s.powerOnReset).params = s.params := rfl
@[simp] theorem State.powerOnReset_events (s : State) : (s.powerOnReset).events = s.events := rfl
@[simp] theorem State.powerOnReset_rdata (s : State) : (s.powerOnReset).rdata = s.rdata := rfl
@[simp] theorem State.powerOnReset_draws (s : State) : (s.powerOnReset).draws = s.draws := rfl
@[simp] theorem State.softReset_ie (s : State) : (s.softReset).ie = State.reset.ie := rfl
@[simp] theorem State.softReset_status (s : State) : (s.softReset).status = State.reset.status := rfl
@[simp] theorem State.softReset_maxSize (s : State) : (s.softReset).maxSize = State.reset.maxSize := rfl
@[simp] theorem State.softReset_frameBase (s : State) : (s.softReset).frameBase = State.reset.frameBase := rfl
@[simp] theorem State.softReset_blkStart (s : State) : (s.softReset).blkStart = State.reset.blkStart := rfl
@[simp] theorem State.softReset_blkLen (s : State) : (s.softReset).blkLen = State.reset.blkLen := rfl
@[simp] theorem State.softReset_crcPoly (s : State) : (s.softReset).crcPoly = State.reset.crcPoly := rfl
@[simp] theorem State.softReset_crcInit (s : State) : (s.softReset).crcInit = State.reset.crcInit := rfl
@[simp] theorem State.softReset_crcXorout (s : State) : (s.softReset).crcXorout = State.reset.crcXorout := rfl
@[simp] theorem State.softReset_crcCfg (s : State) : (s.softReset).crcCfg = State.reset.crcCfg := rfl
@[simp] theorem State.softReset_crcState (s : State) : (s.softReset).crcState = State.reset.crcState := rfl
@[simp] theorem State.softReset_rxFlag (s : State) : (s.softReset).rxFlag = State.reset.rxFlag := rfl
@[simp] theorem State.softReset_rxLen (s : State) : (s.softReset).rxLen = State.reset.rxLen := rfl
@[simp] theorem State.softReset_rxType (s : State) : (s.softReset).rxType = State.reset.rxType := rfl
@[simp] theorem State.softReset_rxCrc (s : State) : (s.softReset).rxCrc = State.reset.rxCrc := rfl
@[simp] theorem State.softReset_calcCrc (s : State) : (s.softReset).calcCrc = State.reset.calcCrc := rfl
@[simp] theorem State.softReset_descs (s : State) : (s.softReset).descs = List.replicate s.params.ndesc Desc.zero := rfl
@[simp] theorem State.softReset_buf (s : State) : (s.softReset).buf = s.bufferAfterAbort := rfl
@[simp] theorem State.softReset_pending (s : State) : (s.softReset).pending = State.reset.pending := rfl
@[simp] theorem State.softReset_params (s : State) : (s.softReset).params = s.params := rfl
@[simp] theorem State.softReset_events (s : State) : (s.softReset).events = s.events := rfl
@[simp] theorem State.softReset_rdata (s : State) : (s.softReset).rdata = s.rdata := rfl
@[simp] theorem State.softReset_draws (s : State) : (s.softReset).draws = s.draws := rfl

/-! ### Writes that a busy engine drops (42_control.md R232) -/

theorem State.writeUnlessBusy_idle {s : State} (h : s.pending = none) (t : State) : s.writeUnlessBusy t = t := by
  simp [State.writeUnlessBusy, h]

theorem State.writeUnlessBusy_busy {s : State} {w : Word} (h : s.pending = some w) (t : State) :
    s.writeUnlessBusy t = { s with status := s.status.withOverrun } := by
  simp [State.writeUnlessBusy, h]

/-- Everything such a write can do. -/
theorem State.writeUnlessBusy_cases (s t : State) :
    (s.pending = none ∧ s.writeUnlessBusy t = t) ∨
      (s.pending ≠ none ∧ s.writeUnlessBusy t = { s with status := s.status.withOverrun }) := by
  by_cases h : s.pending = none
  · exact .inl ⟨h, State.writeUnlessBusy_idle h t⟩
  · obtain ⟨w, hw⟩ := Option.ne_none_iff_exists'.mp h
    exact .inr ⟨h, State.writeUnlessBusy_busy hw t⟩

/-! ### Reads of CRC_STATE and CRC_RESULT (42_control.md R239) -/

theorem State.readCrc_free {s : State} (h : s.crcInFlight = true) (v : Word) :
    s.readCrc v = { s with rdata := Config.freeRead s.draws, draws := s.draws + 1 } := by
  simp [State.readCrc, h]

theorem State.readCrc_plain {s : State} (h : s.crcInFlight = false) (v : Word) :
    s.readCrc v = { s with rdata := v } := by
  simp [State.readCrc, h]

theorem State.crcInFlight_of_idle {s : State} (h : s.pending = none) : s.crcInFlight = false := by
  simp [State.crcInFlight, h]

theorem State.readCrc_cases (s : State) (v : Word) :
    s.readCrc v = { s with rdata := Config.freeRead s.draws, draws := s.draws + 1 } ∨
      s.readCrc v = { s with rdata := v } := by
  unfold State.readCrc; split <;> simp

end Sys2Proof.Machine
end

