-- ==== Sys2Proof/Laws/Ops.lean ====
section
/-! SUPPORT. One spec lemma per shared operation: what the precheck answers, what reading a frame answers, what a turn can
do. Later proofs cite these instead of unfolding. -/

namespace Sys2Proof.Machine

open Host (Outcome)

/-! ### The codec precheck (41_frame_codec.md R188) -/

/-- The machine's desc_ok is R58's, as Safety spells it. -/
theorem State.descOk_iff (s : State) (d : BitVec 8) : s.descOk d ↔ s.descriptorOk d := Iff.rfl

/-- Each of R58's four conditions on its own refutes desc_ok, and nothing else does. -/
theorem State.not_descriptorOk_iff (s : State) (d : BitVec 8) :
    ¬ s.descriptorOk d ↔
      (s.params.ndesc ≤ d.toNat ∨ (s.desc d).hdr.getLsbD 31 = false ∨ (s.desc d).size.toNat < 8 ∨
        (s.desc d).size.toNat - 4 < (s.desc d).crcStart.toNat + (s.desc d).crcLen.toNat) := by
  simp only [State.descriptorOk, not_and_or, not_lt, not_le, Bool.not_eq_true]

theorem State.codecCheck_eq_ok (s : State) (d : BitVec 8) : s.codecCheck d = .ok ↔ s.precheckPasses d := by
  unfold State.codecCheck State.precheckPasses
  split
  · rename_i h1
    simp only [reduceCtorEq, false_iff]
    exact fun h => h1 ((s.descOk_iff d).mpr h.1)
  · split
    · rename_i h1 h2
      simp only [reduceCtorEq, false_iff]
      rintro ⟨-, h, -⟩
      exact absurd h (by simpa [Desc.N] using h2)
    · split
      · rename_i h1 h2 h3
        simp only [reduceCtorEq, false_iff]
        rintro ⟨-, -, h⟩
        have : s.params.bufBytes < s.frameBase.toNat + (s.desc d).size.toNat := h3
        simp only [State.base, Desc.N] at h
        omega
      · rename_i h1 h2 h3
        simp only [true_iff]
        exact ⟨(s.descOk_iff d).mp (not_not.mp h1), by simpa [Desc.N] using h2, by simpa [State.base, Desc.N] using h3⟩

theorem State.codecCheck_descError {s : State} {d : BitVec 8} (h : ¬ s.descriptorOk d) : s.codecCheck d = .descError :=
  if_pos h

theorem State.codecCheck_bufferTooSmall {s : State} {d : BitVec 8} (h : s.descriptorOk d)
    (h2 : s.maxSize.toNat < (s.desc d).N) : s.codecCheck d = .bufferTooSmall := by
  unfold State.codecCheck
  rw [if_neg (not_not.mpr ((s.descOk_iff d).mpr h)), if_pos h2]

theorem State.codecCheck_rangeError {s : State} {d : BitVec 8} (h : s.descriptorOk d)
    (h2 : (s.desc d).N ≤ s.maxSize.toNat) (h3 : s.params.bufBytes < s.base + (s.desc d).N) :
    s.codecCheck d = .rangeError := by
  unfold State.codecCheck
  rw [if_neg (not_not.mpr ((s.descOk_iff d).mpr h)), if_neg (by simpa using h2), if_pos h3]

/-- The bounds a passing precheck gives: the frame is in the buffer, the range is in front of the checksum. -/
theorem State.precheckPasses.bounds {s : State} {d : BitVec 8} (h : s.precheckPasses d) :
    8 ≤ (s.desc d).N ∧ (s.desc d).S + (s.desc d).C ≤ (s.desc d).N - 4 ∧
      s.base + (s.desc d).N ≤ s.params.bufBytes :=
  ⟨h.1.2.2.1, h.1.2.2.2, h.2.2⟩

@[simp] theorem hdrBytes_length (e : Desc) : (hdrBytes e).length = 4 := rfl

@[simp] theorem place_length (c : Word) (o : Bool) : (place c o).length = 4 := by cases o <;> rfl

@[simp] theorem leBytes_length (n : Nat) (w : Word) : (leBytes n w).length = n := by simp [leBytes]

/-! ### ENCODE and DECODE by their precheck -/

theorem execEncodeFrame_of_ok {s : State} {d : BitVec 8} (h : s.codecCheck d = .ok) :
    execEncodeFrame d s =
      match s.rangeBytes (s.buf.writeBytes s.frameBase.toNat (hdrBytes (s.desc d))) d with
      | .error o => .fault (.uninitRead o)
      | .ok bs => .next (s.encoded (s.buf.writeBytes s.frameBase.toNat (hdrBytes (s.desc d))) d (s.crcConf.crc bs)) := by
  simp only [execEncodeFrame, h]
  all_goals rfl

theorem execEncodeFrame_of_fail {s : State} {d : BitVec 8} (h : s.codecCheck d ≠ .ok) :
    execEncodeFrame d s = .next (s.complete (s.codecCheck d)) := by
  unfold execEncodeFrame
  split
  · rename_i h'; exact absurd h' h
  · rfl

theorem execDecodeFrame_of_ok {s : State} {d : BitVec 8} (h : s.codecCheck d = .ok) :
    execDecodeFrame d s =
      match s.parseFrame d with
      | .error o => .fault (.uninitRead o)
      | .ok f => .next (s.decoded d f) := by
  simp only [execDecodeFrame, h]
  all_goals rfl

theorem execDecodeFrame_of_fail {s : State} {d : BitVec 8} (h : s.codecCheck d ≠ .ok) :
    execDecodeFrame d s = .next (s.decodeReject (s.codecCheck d)) := by
  unfold execDecodeFrame
  split
  · rename_i h'; exact absurd h' h
  · rfl

/-- What a parsed frame holds: exactly the bytes of the buffer. -/
theorem State.parseFrame_eq_ok (s : State) (d : BitVec 8) (f : ParsedFrame) :
    s.parseFrame d = .ok f ↔
      s.buf.readFour s.frameBase.toNat = .ok (f.flag, f.lenHi, f.lenLo, f.type) ∧
      s.rangeBytes s.buf d = .ok f.range ∧
      s.buf.readFour (s.checksumAt d) = .ok (f.sum0, f.sum1, f.sum2, f.sum3) := by
  unfold State.parseFrame
  constructor
  · intro h
    split at h
    · cases h
    · rename_i a b c e h1
      split at h
      · cases h
      · rename_i bs h2
        split at h
        · cases h
        · rename_i b0 b1 b2 b3 h3
          injection h with h
          subst h
          exact ⟨h1, h2, h3⟩
  · rintro ⟨h1, h2, h3⟩
    simp only [h1, h2, h3]

/-! ### The engine's completion step (42_control.md R233) -/

/-- CRC_BLOCK by its range check and the bytes it reads (40_crc_engine.md R152). -/
theorem execCrcBlock_of_range {s : State} (seed : Bool) (h : s.blkStart.toNat + s.blkLen.toNat ≤ s.params.bufBytes) :
    execCrcBlock seed s =
      match s.buf.readBytes s.blkStart.toNat s.blkLen.toNat with
      | .error o => .fault (.uninitRead o)
      | .ok bs => .next ({ s with
          crcState := s.crcConf.run (if seed then s.crcInit else s.crcState) bs }.complete .ok) := by
  unfold execCrcBlock
  rw [if_neg (not_lt.mpr h)]
  all_goals rfl

theorem execCrcBlock_of_rangeError {s : State} (seed : Bool)
    (h : s.params.bufBytes < s.blkStart.toNat + s.blkLen.toNat) :
    execCrcBlock seed s = .next (s.complete .rangeError) := by
  unfold execCrcBlock
  rw [if_pos h]

/-- An ENCODE whose precheck passes and whose range bytes beyond the header are written completes with OK. -/
theorem execEncodeFrame_of_written {s : State} {d : BitVec 8} (h : s.precheckPasses d)
    (hw : ∀ k < (s.desc d).C, 4 ≤ (s.desc d).S + k →
      (s.buf.read? (s.base + (s.desc d).S + k)).isSome = true) :
    ∃ bs, s.rangeBytes (s.buf.writeBytes s.frameBase.toNat (hdrBytes (s.desc d))) d = .ok bs ∧
      execEncodeFrame d s =
        .next (s.encoded (s.buf.writeBytes s.frameBase.toNat (hdrBytes (s.desc d))) d (s.crcConf.crc bs)) := by
  rw [execEncodeFrame_of_ok ((s.codecCheck_eq_ok d).mpr h)]
  obtain ⟨bs, hb, -⟩ := Memory.readBytes_of_written
    (s.buf.writeBytes s.frameBase.toNat (hdrBytes (s.desc d)))
    (s.frameBase.toNat + (s.desc d).crcStart.toNat) (s.desc d).crcLen.toNat (by
      intro k hk
      rw [Memory.read?_writeBytes]
      split
      · rename_i h4
        have hlt : s.frameBase.toNat + (s.desc d).crcStart.toNat + k - s.frameBase.toNat <
            (hdrBytes (s.desc d)).length := by omega
        rw [List.getElem?_eq_getElem hlt]
        rfl
      · rename_i h4
        rw [hdrBytes_length] at h4
        exact hw k hk (by show 4 ≤ (s.desc d).crcStart.toNat + k; omega))
  have hr : s.rangeBytes (s.buf.writeBytes s.frameBase.toNat (hdrBytes (s.desc d))) d = .ok bs := hb
  exact ⟨bs, hr, by rw [hr]⟩

@[simp] theorem byteLane_setWidth_zero (b : Byte) : byteLane (b.setWidth 32) 0 = b := by
  apply BitVec.eq_of_getLsbD_eq
  intro i hi
  simp [byteLane, hi]
  intro h
  omega

/-- Byte writes while no command is in flight feed the sequence into CRC_STATE and change nothing else. -/
theorem State.streamBytes_idle {s : State} (hp : s.pending = none) (bs : List Byte) :
    s.streamBytes bs = .next { s with crcState := s.crcConf.run s.crcState bs } := by
  induction bs generalizing s with
  | nil => rfl
  | cons b bs ih =>
    have hb : exec (.wrCrcData8 (b.setWidth 32)) s = .next { s with crcState := s.crcConf.update s.crcState b } := by
      show Outcome.next (State.writeUnlessBusy _ _) = _
      rw [State.writeUnlessBusy_idle hp, byteLane_setWidth_zero]
    simp only [State.streamBytes, hb]
    rw [ih (s := { s with crcState := s.crcConf.update s.crcState b }) hp]
    rfl

/-- Everything the completion of a command can be, by its opcode. -/
theorem command_cases {s t : State} {w : Word} (h : exec (decodeCommand w) s = .next t) :
    (cmdOp w = 0x0 ∧ t = s.complete .ok) ∨
    (cmdOp w = 0x1 ∧ t = { s with crcState := s.crcInit }.complete .ok) ∨
    (cmdOp w = 0x2 ∧ s.params.bufBytes < s.blkStart.toNat + s.blkLen.toNat ∧ t = s.complete .rangeError) ∨
    (cmdOp w = 0x2 ∧ s.blkStart.toNat + s.blkLen.toNat ≤ s.params.bufBytes ∧
      ∃ bs, s.buf.readBytes s.blkStart.toNat s.blkLen.toNat = .ok bs ∧
        t = { s with
          crcState := s.crcConf.run (if cmdSeed w then s.crcInit else s.crcState) bs }.complete .ok) ∨
    (cmdOp w = 0x3 ∧ ¬ s.precheckPasses (cmdDesc w) ∧ t = s.complete (s.codecCheck (cmdDesc w))) ∨
    (cmdOp w = 0x3 ∧ s.precheckPasses (cmdDesc w) ∧
      ∃ bs, s.rangeBytes (s.buf.writeBytes s.frameBase.toNat (hdrBytes (s.desc (cmdDesc w)))) (cmdDesc w) = .ok bs ∧
        t = s.encoded (s.buf.writeBytes s.frameBase.toNat (hdrBytes (s.desc (cmdDesc w)))) (cmdDesc w)
          (s.crcConf.crc bs)) ∨
    (cmdOp w = 0x4 ∧ ¬ s.precheckPasses (cmdDesc w) ∧ t = s.decodeReject (s.codecCheck (cmdDesc w))) ∨
    (cmdOp w = 0x4 ∧ s.precheckPasses (cmdDesc w) ∧
      ∃ f, s.parseFrame (cmdDesc w) = .ok f ∧ t = s.decoded (cmdDesc w) f) ∨
    (5 ≤ (cmdOp w).toNat ∧ t = s.complete .illegalCmd) := by
  have hop : ∀ n : Nat, n < 16 → (cmdOp w).toNat = n → cmdOp w = BitVec.ofNat 4 n := by
    intro n hn hw
    apply BitVec.eq_of_toNat_eq
    rw [BitVec.toNat_ofNat, hw]
    omega
  have hlt := (cmdOp w).isLt
  rcases (by omega : (cmdOp w).toNat = 0 ∨ (cmdOp w).toNat = 1 ∨ (cmdOp w).toNat = 2 ∨ (cmdOp w).toNat = 3 ∨
    (cmdOp w).toNat = 4 ∨ 5 ≤ (cmdOp w).toNat) with h0 | h0 | h0 | h0 | h0 | h0
  · simp only [decodeCommand, h0, exec, execNop, Host.Outcome.next.injEq] at h
    exact .inl ⟨hop 0 (by omega) h0, h.symm⟩
  · simp only [decodeCommand, h0, exec, execCrcInit, Host.Outcome.next.injEq] at h
    exact .inr (.inl ⟨hop 1 (by omega) h0, h.symm⟩)
  · simp only [decodeCommand, h0, exec] at h
    by_cases hr : s.blkStart.toNat + s.blkLen.toNat ≤ s.params.bufBytes
    · rw [execCrcBlock_of_range _ hr] at h
      split at h
      · cases h
      · rename_i bs hb
        injection h with h
        exact .inr (.inr (.inr (.inl ⟨hop 2 (by omega) h0, hr, bs, hb, h.symm⟩)))
    · rw [execCrcBlock_of_rangeError _ (not_le.mp hr)] at h
      injection h with h
      exact .inr (.inr (.inl ⟨hop 2 (by omega) h0, not_le.mp hr, h.symm⟩))
  · simp only [decodeCommand, h0, exec] at h
    by_cases hc : s.codecCheck (cmdDesc w) = .ok
    · rw [execEncodeFrame_of_ok hc] at h
      split at h
      · cases h
      · rename_i bs hb
        injection h with h
        exact .inr (.inr (.inr (.inr (.inr (.inl
          ⟨hop 3 (by omega) h0, (s.codecCheck_eq_ok _).mp hc, bs, hb, h.symm⟩)))))
    · rw [execEncodeFrame_of_fail hc] at h
      injection h with h
      exact .inr (.inr (.inr (.inr (.inl
        ⟨hop 3 (by omega) h0, fun hp => hc ((s.codecCheck_eq_ok _).mpr hp), h.symm⟩))))
  · simp only [decodeCommand, h0, exec] at h
    by_cases hc : s.codecCheck (cmdDesc w) = .ok
    · rw [execDecodeFrame_of_ok hc] at h
      split at h
      · cases h
      · rename_i f hf
        injection h with h
        exact .inr (.inr (.inr (.inr (.inr (.inr (.inr (.inl
          ⟨hop 4 (by omega) h0, (s.codecCheck_eq_ok _).mp hc, f, hf, h.symm⟩)))))))
    · rw [execDecodeFrame_of_fail hc] at h
      injection h with h
      exact .inr (.inr (.inr (.inr (.inr (.inr (.inl
        ⟨hop 4 (by omega) h0, fun hp => hc ((s.codecCheck_eq_ok _).mpr hp), h.symm⟩))))))
  · refine .inr (.inr (.inr (.inr (.inr (.inr (.inr (.inr ⟨h0, ?_⟩)))))))
    have hn : exec (decodeCommand w) s = .next (s.complete .illegalCmd) := by
      unfold decodeCommand
      split <;> first | omega | rfl
    rw [hn] at h
    injection h with h
    exact h.symm

/-- Four written bytes read as four bytes. -/
theorem Memory.readFour_of_written (m : Memory) (a : Nat) (h : ∀ k < 4, (m.read? (a + k)).isSome = true) :
    ∃ b, m.readFour a = .ok b := by
  obtain ⟨b0, h0⟩ := Option.isSome_iff_exists.mp (h 0 (by omega))
  obtain ⟨b1, h1⟩ := Option.isSome_iff_exists.mp (h 1 (by omega))
  obtain ⟨b2, h2⟩ := Option.isSome_iff_exists.mp (h 2 (by omega))
  obtain ⟨b3, h3⟩ := Option.isSome_iff_exists.mp (h 3 (by omega))
  exact ⟨_, (Memory.readFour_eq_ok _ _ _ _ _ _).mpr ⟨h0, h1, h2, h3⟩⟩

/-- A DECODE whose precheck passes and whose buffer is written parses its frame. -/
theorem State.parseFrame_of_written {s : State} {d : BitVec 8} (h : s.precheckPasses d)
    (hw : s.written 0 s.params.bufBytes) : ∃ f, s.parseFrame d = .ok f := by
  obtain ⟨h8, hsc, hb⟩ := h.bounds
  simp only [State.base, Desc.N, Desc.S, Desc.C] at h8 hsc hb
  have hw : ∀ o, o < s.params.bufBytes → (s.buf.read? o).isSome = true := fun o ho => by
    simpa using hw o ho
  obtain ⟨⟨f, lh, ll, ty⟩, h1⟩ := Memory.readFour_of_written s.buf s.frameBase.toNat fun k hk => hw _ (by omega)
  obtain ⟨bs, h2, -⟩ := Memory.readBytes_of_written s.buf (s.frameBase.toNat + (s.desc d).crcStart.toNat)
    (s.desc d).crcLen.toNat fun k hk => hw _ (by omega)
  obtain ⟨⟨b0, b1, b2, b3⟩, h3⟩ := Memory.readFour_of_written s.buf (s.checksumAt d) fun k hk =>
    hw _ (by unfold State.checksumAt; omega)
  exact ⟨⟨f, lh, ll, ty, bs, b0, b1, b2, b3⟩, (State.parseFrame_eq_ok _ _ _).mpr ⟨h1, h2, h3⟩⟩

/-- With every byte of the buffer written, no command word stops. -/
theorem command_next_of_written {s : State} (hw : s.written 0 s.params.bufBytes) (w : Word) :
    ∃ t, exec (decodeCommand w) s = .next t := by
  have hb : ∀ o, o < s.params.bufBytes → (s.buf.read? o).isSome = true := fun o ho => by
    simpa using hw o ho
  unfold decodeCommand
  split <;> try exact ⟨_, rfl⟩
  · simp only [exec]
    by_cases hr : s.blkStart.toNat + s.blkLen.toNat ≤ s.params.bufBytes
    · obtain ⟨bs, h, -⟩ := Memory.readBytes_of_written s.buf s.blkStart.toNat s.blkLen.toNat fun k hk =>
        hb _ (by omega)
      exact ⟨_, by rw [execCrcBlock_of_range _ hr, h]⟩
    · exact ⟨_, execCrcBlock_of_rangeError _ (not_le.mp hr)⟩
  · simp only [exec]
    by_cases hc : s.codecCheck (cmdDesc w) = .ok
    · have hp := (s.codecCheck_eq_ok _).mp hc
      obtain ⟨h8, hsc, hf⟩ := hp.bounds
      obtain ⟨bs, -, h⟩ := execEncodeFrame_of_written hp fun k hk _ => hb _ (by omega)
      exact ⟨_, h⟩
    · exact ⟨_, execEncodeFrame_of_fail hc⟩
  · simp only [exec]
    by_cases hc : s.codecCheck (cmdDesc w) = .ok
    · obtain ⟨f, hf⟩ := State.parseFrame_of_written ((s.codecCheck_eq_ok _).mp hc) hw
      exact ⟨_, by rw [execDecodeFrame_of_ok hc, hf]⟩
    · exact ⟨_, execDecodeFrame_of_fail hc⟩

/-- Every completion is `complete` of the code in RESULT: DONE set, nothing in flight, IE and OVERRUN kept. -/
theorem command_completes {s t : State} {w : Word} (h : exec (decodeCommand w) s = .next t) :
    t.pending = none ∧ t.status.done = true ∧ t.status.overrun = s.status.overrun ∧
      t.status.err = (s.status.err || decide (t.status.result ≠ .ok)) ∧ t.ie = s.ie := by
  rcases command_cases h with ⟨-, rfl⟩ | ⟨-, rfl⟩ | ⟨-, -, rfl⟩ | ⟨-, -, _, -, rfl⟩ | ⟨-, -, rfl⟩ | ⟨-, -, _, -, rfl⟩ |
    ⟨-, -, rfl⟩ | ⟨-, -, _, -, rfl⟩ | ⟨-, rfl⟩ <;> exact ⟨rfl, rfl, rfl, rfl, rfl⟩

/-! ### The host's transactions (30_encoding.md R116) -/

/-- A register transaction is the 4-byte one of its offset. -/
theorem txn_eq {tx : BusTxn} {a : Nat} (ha : tx.addr.toNat = a) (hs : tx.size = 2) (hw : tx.we = true) :
    tx = { we := true, addr := BitVec.ofNat 17 a, size := 2, wdata := tx.wdata } := by
  obtain ⟨we, addr, size, wdata⟩ := tx
  simp only at ha hs hw
  subst ha hs hw
  rw [BitVec.ofNat_toNat, BitVec.setWidth_eq]

theorem readCrc_cases (s : State) (v : Word) : ∃ r n, s.readCrc v = { s with rdata := r, draws := n } := by
  unfold State.readCrc
  split
  · exact ⟨_, _, rfl⟩
  · exact ⟨v, s.draws, rfl⟩

/-- Everything a host transaction that is answered without `err` can do. In this order: soft reset; IE stored; STATUS
write; a write dropped while busy; issue; operand write; CRC parameter write; CRC_STATE written or fed; a write to a
read-only register; a read; a window write. -/
theorem host_cases {s t : State} {tx : BusTxn} {i : Instr} (hd : decodeTxn s.params tx = .ok i)
    (h : exec i s = .next t) :
    (∃ v, v.getLsbD 1 = true ∧ tx = { we := true, addr := 0x000, size := 2, wdata := v } ∧ t = s.softReset) ∨
    (∃ b, tx.we = true ∧ t = { s with ie := b }) ∨
    (∃ v, tx.we = true ∧ t = { s with status := s.status.writeOneToClear v }) ∨
    (s.pending ≠ none ∧ tx.we = true ∧ t = { s with status := s.status.withOverrun }) ∨
    (s.pending = none ∧ tx.we = true ∧ ∃ v, t = { s with pending := some v }) ∨
    (s.pending = none ∧ tx.we = true ∧ ∃ r v, r.wf s.params = true ∧ t = s.setOperand r v) ∨
    (s.pending = none ∧ tx.we = true ∧ ∃ r v, t = s.setCrcReg r v) ∨
    (s.pending = none ∧ ∃ a w v, (a = 0x02C ∨ a = 0x034 ∨ a = 0x038) ∧
      tx = { we := true, addr := a, size := 2, wdata := w } ∧ t = { s with crcState := v }) ∨
    (tx.we = true ∧ t = s) ∨
    (tx.we = false ∧ ∃ r n, t = { s with rdata := r, draws := n }) ∨
    (s.pending = none ∧ tx.we = true ∧ 0x10000 ≤ tx.addr.toNat ∧ ∃ sz, sizeOfField tx.size = some sz ∧
      inWindow s.params sz (tx.addr.setWidth 16) ∧
      t = { s with buf := s.buf.writeBytes (tx.addr.toNat - 0x10000) (leBytes sz.bytes tx.wdata) }) := by
  rcases decodeTxn_cases hd with ⟨ha, hs, -, hw, hr⟩ | ⟨ha, hs, -, hw, hr⟩ | ⟨ha, sz, hs, hwin, rfl⟩
  · have drop : ∀ u, t = s.writeUnlessBusy u →
        (s.pending ≠ none ∧ tx.we = true ∧ t = { s with status := s.status.withOverrun }) ∨
          (s.pending = none ∧ t = u) := by
      rintro u rfl
      by_cases hb : s.pending = none
      · exact .inr ⟨hb, State.writeUnlessBusy_idle hb u⟩
      · obtain ⟨c, hc⟩ := Option.ne_none_iff_exists'.mp hb
        exact .inl ⟨hb, hw, State.writeUnlessBusy_busy hc u⟩
    have operand : ∀ r, exec (.wrOperand r tx.wdata) s = .next t →
        (s.pending ≠ none ∧ tx.we = true ∧ t = { s with status := s.status.withOverrun }) ∨
          (s.pending = none ∧ tx.we = true ∧ ∃ r v, r.wf s.params = true ∧ t = s.setOperand r v) := by
      intro r h
      simp only [exec, execWrOperand] at h
      split at h
      · rename_i hwf
        injection h with h
        rcases drop _ h.symm with h | ⟨hb, h⟩
        · exact .inl h
        · exact .inr ⟨hb, hw, r, _, hwf, h⟩
      · cases h
    rcases decodeRegWrite_cases hr with ⟨h0, rfl⟩ | ⟨h0, rfl⟩ | ⟨h0, rfl⟩ | ⟨h0, rfl⟩ | ⟨h0, rfl⟩ | ⟨h0, rfl⟩ |
      ⟨h0, rfl⟩ | ⟨h0, rfl⟩ | ⟨h0, rfl⟩ | ⟨h0, rfl⟩ | ⟨h0, rfl⟩ | ⟨h0, rfl⟩ | ⟨h0, rfl⟩ | ⟨h0, rfl⟩ | ⟨r, h0, rfl⟩ |
      ⟨d, k, h0, rfl⟩
    · simp only [exec, execWrCtrl, Host.Outcome.next.injEq] at h
      by_cases h1 : tx.wdata.getLsbD 1 = true
      · rw [if_pos h1] at h
        exact .inl ⟨tx.wdata, h1, txn_eq h0 hs hw, h.symm⟩
      · rw [if_neg h1] at h
        exact .inr (.inl ⟨_, hw, h.symm⟩)
    · injection h with h
      exact .inr (.inr (.inl ⟨_, hw, h.symm⟩))
    · injection h with h
      rcases drop _ h.symm with h | ⟨hb, h⟩
      · exact .inr (.inr (.inr (.inl h)))
      · exact .inr (.inr (.inr (.inr (.inl ⟨hb, hw, _, h⟩))))
    · rcases operand _ h with h | h
      · exact .inr (.inr (.inr (.inl h)))
      · exact .inr (.inr (.inr (.inr (.inr (.inl h)))))
    · rcases operand _ h with h | h
      · exact .inr (.inr (.inr (.inl h)))
      · exact .inr (.inr (.inr (.inr (.inr (.inl h)))))
    · rcases operand _ h with h | h
      · exact .inr (.inr (.inr (.inl h)))
      · exact .inr (.inr (.inr (.inr (.inr (.inl h)))))
    · rcases operand _ h with h | h
      · exact .inr (.inr (.inr (.inl h)))
      · exact .inr (.inr (.inr (.inr (.inr (.inl h)))))
    iterate 4
      · injection h with h
        rcases drop _ h.symm with h | ⟨hb, h⟩
        · exact .inr (.inr (.inr (.inl h)))
        · exact .inr (.inr (.inr (.inr (.inr (.inr (.inl ⟨hb, hw, _, _, h⟩))))))
    iterate 3
      · injection h with h
        rcases drop _ h.symm with h | ⟨hb, h⟩
        · exact .inr (.inr (.inr (.inl h)))
        · exact .inr (.inr (.inr (.inr (.inr (.inr (.inr (.inl
            ⟨hb, _, _, _, by decide, txn_eq h0 hs hw, h⟩)))))))
    · injection h with h
      exact .inr (.inr (.inr (.inr (.inr (.inr (.inr (.inr (.inl ⟨hw, h.symm⟩))))))))
    · rcases operand _ h with h | h
      · exact .inr (.inr (.inr (.inl h)))
      · exact .inr (.inr (.inr (.inr (.inr (.inl h)))))
  · refine .inr (.inr (.inr (.inr (.inr (.inr (.inr (.inr (.inr (.inl ⟨hw, ?_⟩)))))))))
    have reg : ∀ r, exec (.rdReg r) s = .next t → ∃ r n, t = { s with rdata := r, draws := n } := by
      intro r h
      simp only [exec, execRdReg] at h
      split at h
      · injection h with h
        exact ⟨_, s.draws, h.symm⟩
      · cases h
    rcases decodeRegRead_cases hr with ⟨h0, rfl⟩ | ⟨h0, rfl⟩ | ⟨r, _, h0, rfl⟩ | ⟨d, k, h0, rfl⟩
    · injection h with h
      exact h ▸ readCrc_cases s _
    · injection h with h
      exact h ▸ readCrc_cases s _
    · exact reg _ h
    · exact reg _ h
  · have hf : s.windowFault sz (tx.addr.setWidth 16) =
        if s.busy then some (.bufferRace (windowAddr (tx.addr.setWidth 16))) else none := by
      unfold State.windowFault
      rw [if_neg (not_not.mpr hwin)]
    by_cases hb : s.pending = none
    · have hf : s.windowFault sz (tx.addr.setWidth 16) = none := by
        rw [hf, if_neg (by simp [State.busy, hb])]
      cases hw : tx.we
      · rw [hw] at h
        simp only [Bool.false_eq_true, if_false, exec, execBufRd, hf] at h
        split at h
        · cases h
        · injection h with h
          exact .inr (.inr (.inr (.inr (.inr (.inr (.inr (.inr (.inr (.inl ⟨rfl, _, s.draws, h.symm⟩)))))))))
      · rw [hw] at h
        simp only [if_true, exec, execBufWr, hf, Host.Outcome.next.injEq] at h
        refine .inr (.inr (.inr (.inr (.inr (.inr (.inr (.inr (.inr (.inr ⟨hb, rfl, ha, sz, hs, hwin, ?_⟩)))))))))
        rw [← (setWidth_windowAddr ha).1]
        exact h.symm
    · have hf : s.windowFault sz (tx.addr.setWidth 16) = some (.bufferRace (windowAddr (tx.addr.setWidth 16))) := by
        obtain ⟨c, hc⟩ := Option.ne_none_iff_exists'.mp hb
        rw [hf, if_pos (by simp [State.busy, hc])]
      cases hw : tx.we <;> rw [hw] at h <;> simp [exec, execBufRd, execBufWr, hf] at h

/-! ### Turns -/

/-- The state a turn runs on: the list of turns without the one taken. -/
def State.afterFetch (s : State) : State := { s with events := s.events.tail }

theorem fetch_snd (s : State) : (fetch s).2 = s.afterFetch := by
  unfold fetch State.afterFetch
  split <;> rename_i h <;> simp [h]
  cases s; simp_all

/-- Everything a step that answers a next state can be: the engine's completion, a turn with nothing to do, a host
transaction, a power-on reset. -/
theorem step_cases {s t : State} (h : step s = .next t) :
    (∃ w, s.engineNext ∧ s.pending = some w ∧ exec (decodeCommand w) s.afterFetch = .next t) ∨
    (s.engineNext ∧ s.pending = none ∧ t = s.afterFetch) ∨
    (∃ tx es i, s.events = .bus tx :: es ∧ decodeTxn s.params tx = .ok i ∧ exec i s.afterFetch = .next t) ∨
    (∃ es, s.events = .powerOn :: es ∧ t = s.afterFetch.powerOnReset) := by
  have hs := fetch_snd s
  unfold step takeTurn at h
  cases he : s.events with
  | nil =>
    cases hp : s.pending with
    | none =>
      simp only [fetch, he, engineTurn, hp] at h hs
      injection h with h
      exact .inr (.inl ⟨.inl he, rfl, h ▸ hs⟩)
    | some w =>
      simp only [fetch, he, engineTurn, hp, runRaw, decode] at h hs
      exact .inl ⟨w, .inl he, rfl, hs ▸ h⟩
  | cons e es =>
    cases e with
    | engine =>
      cases hp : s.pending with
      | none =>
        simp only [fetch, he, engineTurn, hp] at h hs
        injection h with h
        exact .inr (.inl ⟨.inr ⟨es, he⟩, rfl, h ▸ hs⟩)
      | some w =>
        simp only [fetch, he, engineTurn, hp, runRaw, decode] at h hs
        exact .inl ⟨w, .inr ⟨es, he⟩, rfl, hs ▸ h⟩
    | bus tx =>
      simp only [fetch, he, runRaw, decode] at h hs
      split at h
      · rename_i i hi
        exact .inr (.inr (.inl ⟨tx, es, i, rfl, hi, hs ▸ h⟩))
      · cases h
    | powerOn =>
      simp only [fetch, he] at h hs
      injection h with h
      exact .inr (.inr (.inr ⟨es, rfl, hs ▸ h.symm⟩))

/-- The engine's turn with a command in flight runs it. -/
theorem step_engine {s : State} {w : Word} (he : s.engineNext) (hp : s.pending = some w) :
    step s = exec (decodeCommand w) s.afterFetch := by
  have hs := fetch_snd s
  unfold step takeTurn
  rcases he with he | ⟨es, he⟩ <;> simp only [fetch, he, engineTurn, hp, runRaw, decode] at hs ⊢
  · rw [← hs]
  · rw [hs]

/-- The host's turn runs the transaction's operation, or is a bus error. -/
theorem step_bus {s : State} {tx : BusTxn} {es : List Event} (he : s.events = .bus tx :: es) :
    step s = match decodeTxn s.params tx with
      | .ok i => exec i s.afterFetch
      | .error e => .fault (.busError e.addr) := by
  have hs := fetch_snd s
  unfold step takeTurn
  simp only [fetch, he, runRaw, decode] at hs ⊢
  rw [hs]
  all_goals rfl

/-! ### Runs -/

theorem run_next {s s' : State} (h : step s = .next s') (k : Nat) :
    Sys2Proof.core.run (k + 1) s = Sys2Proof.core.run k s' := by
  have h' : Sys2Proof.core.step s = .next s' := h
  simp only [Host.Core.run, h']

theorem run_succ_next {s t : State} {k : Nat} (h : Sys2Proof.core.run (k + 1) s = .next t) :
    ∃ s', step s = .next s' ∧ Sys2Proof.core.run k s' = .next t := by
  simp only [Host.Core.run] at h
  split at h
  · rename_i s' hs
    exact ⟨s', hs, h⟩
  · cases h
  · cases h

end Sys2Proof.Machine
end

