-- ==== Sys2Proof/Laws/PerInstr.lean ====
section
/-! SUPPORT. Statements made per instruction. EncodingShape: the encoder only writes words and transactions that the spec
lets software write: reserved command bits 0 (30_encoding.md R114), a legal `size`, and in the register space an aligned
4-byte access (20_memory.md R81, R83). -/

namespace Sys2Proof.Laws.EncodingShape

/-- The shape of an encoded operation. -/
def Shape : Raw → Prop
  | .command w => w &&& 0xFFFF00E0#32 = 0
  | .bus t => t.size ≠ 3 ∧ (t.addr.toNat < 0x10000 → t.size = 2 ∧ t.addr.toNat % 4 = 0)

/-- The instruction's encoding has that shape. -/
def Statement (i : Instr) : Prop := Shape (encode i)

theorem shape_command (op : BitVec 4) (b : Bool) (d : BitVec 8) : Shape (.command (commandWord op b d)) := by
  show commandWord op b d &&& 0xFFFF00E0#32 = 0
  revert op b d
  decide +kernel

theorem shape_write (a : Addr) (w : Word) (h : a.toNat % 4 = 0) : Shape (regWrite a w) :=
  ⟨(by decide : (2 : BitVec 2) ≠ 3), fun _ => ⟨rfl, h⟩⟩

theorem shape_read (a : Addr) (h : a.toNat % 4 = 0) : Shape (regRead a) := ⟨(by decide : (2 : BitVec 2) ≠ 3), fun _ => ⟨rfl, h⟩⟩

theorem descOffset_aligned (i : BitVec 8) (k : DescWord) : (descOffset i k).toNat % 4 = 0 := by
  have h := descOffset_toNat i k
  cases k <;> simp only at h <;> omega

theorem shape_window (we : Bool) (sz : AccessSize) (o : BitVec 16) (w : Word) :
    Shape (.bus { we := we, addr := windowAddr o, size := sz.field, wdata := w }) := by
  have hs : ∀ sz : AccessSize, sz.field ≠ 3 := by intro sz; cases sz <;> decide
  refine ⟨hs sz, fun h => ?_⟩
  have := windowAddr_toNat o
  simp only at h
  omega

theorem nop : Statement .nop := shape_command _ _ _
theorem crcInit : Statement .crcInit := shape_command _ _ _
theorem crcBlock (seed : Bool) : Statement (.crcBlock seed) := shape_command _ _ _
theorem encodeFrame (d : BitVec 8) : Statement (.encodeFrame d) := shape_command _ _ _
theorem decodeFrame (d : BitVec 8) : Statement (.decodeFrame d) := shape_command _ _ _
theorem reserved5 : Statement .reserved5 := shape_command _ _ _
theorem reserved6 : Statement .reserved6 := shape_command _ _ _
theorem reserved7 : Statement .reserved7 := shape_command _ _ _
theorem reserved8 : Statement .reserved8 := shape_command _ _ _
theorem reserved9 : Statement .reserved9 := shape_command _ _ _
theorem reservedA : Statement .reservedA := shape_command _ _ _
theorem reservedB : Statement .reservedB := shape_command _ _ _
theorem reservedC : Statement .reservedC := shape_command _ _ _
theorem reservedD : Statement .reservedD := shape_command _ _ _
theorem reservedE : Statement .reservedE := shape_command _ _ _
theorem reservedF : Statement .reservedF := shape_command _ _ _
theorem wrCrcData8 (w : Word) : Statement (.wrCrcData8 w) := shape_write _ _ (by decide)
theorem wrCrcData32 (w : Word) : Statement (.wrCrcData32 w) := shape_write _ _ (by decide)
theorem wrCrcState (w : Word) : Statement (.wrCrcState w) := shape_write _ _ (by decide)
theorem rdCrcResult : Statement .rdCrcResult := shape_read _ (by decide)
theorem rdCrcState : Statement .rdCrcState := shape_read _ (by decide)
theorem wrCrcConfig (r : CrcReg) (w : Word) : Statement (.wrCrcConfig r w) :=
  shape_write _ _ (by cases r <;> decide)
theorem wrCmd (w : Word) : Statement (.wrCmd w) := shape_write _ _ (by decide)
theorem wrCtrl (w : Word) : Statement (.wrCtrl w) := shape_write _ _ (by decide)
theorem wrStatus (w : Word) : Statement (.wrStatus w) := shape_write _ _ (by decide)
theorem rdReg (r : ReadReg) : Statement (.rdReg r) :=
  shape_read _ (by cases r <;> first | decide | exact descOffset_aligned _ _)
theorem wrOperand (r : OperandReg) (w : Word) : Statement (.wrOperand r w) :=
  shape_write _ _ (by cases r <;> first | decide | exact descOffset_aligned _ _)
theorem wrRo (r : RoReg) (w : Word) : Statement (.wrRo r w) := shape_write _ _ (by cases r <;> decide)
theorem bufWr (sz : AccessSize) (o : BitVec 16) (w : Word) : Statement (.bufWr sz o w) := shape_window _ _ _ _
theorem bufRd (sz : AccessSize) (o : BitVec 16) : Statement (.bufRd sz o) := shape_window _ _ _ _

end Sys2Proof.Laws.EncodingShape
end

