-- ==== Sys2Proof/Tests/Slice0.lean ====
section
/-! SUPPORT. Tests. Expected values come from spec/95_test_vectors.md (its section is named at each test) or from the rule
named; command words and transactions are written out from 30_encoding.md R110, R111, R116, R120 and 10_state.md R31. -/

namespace Sys2Proof.Tests

open Sys2Proof.Machine

/-! ### Helpers -/

/-- The state a next outcome holds. -/
def after : Host.Outcome State Fault Refusal → Option State
  | .next s => some s
  | .fault _ => none
  | .refused _ => none

/-- The fault an outcome holds. -/
def faultOf : Host.Outcome State Fault Refusal → Option Fault
  | .fault f => some f
  | .next _ => none
  | .refused _ => none

/-- A next state that meets P, from a computation on `after`. -/
theorem next_of_any {o : Host.Outcome State Fault Refusal} {P : State → Bool} (h : (after o).any P = true) :
    ∃ t, o = .next t ∧ P t = true := by
  cases o with
  | next t => exact ⟨t, rfl, h⟩
  | fault f => cases h
  | refused r => cases h

/-- What the decoder answers under the default parameters. -/
def dec (r : Raw) : Option Instr :=
  match decode Params.default r with
  | .ok i => some i
  | .error _ => none

/-- Why the decoder rejects under the default parameters. -/
def decErr (r : Raw) : Option BusErrorCause :=
  match decode Params.default r with
  | .ok _ => none
  | .error e => some e.cause

/-- A transaction. -/
def txn (we : Bool) (a : Addr) (sz : BitVec 2) (d : Word) : Raw := .bus { we := we, addr := a, size := sz, wdata := d }

/-- A write of four bytes. -/
def w4 (a : Addr) (d : Word) : Raw := txn true a 2 d

/-- A read of four bytes. -/
def r4 (a : Addr) : Raw := txn false a 2 0

/-- Descriptor 0 of 95_test_vectors.md §3.1, row 1: HDR 0x800C0007, N 12, S 3, C 5. -/
def desc7 : Desc := { hdr := 0x800C0007, size := 12, crcStart := 3, crcLen := 5 }

/-- Reset with descriptor 0 = `e`, MAX_SIZE `m` and the bytes `bs` written from offset 0. -/
def frameState (e : Desc) (m : Word) (bs : List Byte) : State :=
  { State.reset with descs := State.reset.descs.set 0 e, maxSize := m, buf := Memory.writeBytes [] 0 bs }

/-- The encoded type-7 frame (95_test_vectors.md §1.1, N = 12). -/
def frame7 : List Byte := [0x7E, 0x00, 0x0C, 0x07, 0, 0, 0, 0, 0x0D, 0x2B, 0x02, 0x74]

/-- The state of §3.3: the encoded frame in the buffer, descriptor 0 set. -/
def framed : State := frameState desc7 12 frame7

/-- The state of §3.1 before ENC: a zeroed frame. -/
def zeroed : State := frameState desc7 12 (List.replicate 12 0)

/-- Reset with a command in flight. -/
def busy (c : Word) : State := { State.reset with pending := some c }

/-! ### WellFormed: one ill-formed term per check, and its legal neighbour -/

theorem test_wf_rdReg_desc : Instr.wf Params.default (.rdReg (.desc 16 .hdr)) = false ∧
    Instr.wf Params.default (.rdReg (.desc 15 .hdr)) = true := by decide
theorem test_wf_wrOperand_desc : Instr.wf Params.default (.wrOperand (.desc 16 .size) 0) = false ∧
    Instr.wf Params.default (.wrOperand (.desc 15 .size) 0) = true := by decide
theorem test_wf_bufWr_misaligned : Instr.wf Params.default (.bufWr .half 1 0) = false ∧
    Instr.wf Params.default (.bufWr .half 2 0) = true := by decide
theorem test_wf_bufWr_beyond : Instr.wf Params.default (.bufWr .word 1024 0) = false ∧
    Instr.wf Params.default (.bufWr .word 1020 0) = true := by decide
theorem test_wf_bufRd_misaligned : Instr.wf Params.default (.bufRd .word 2) = false ∧
    Instr.wf Params.default (.bufRd .word 4) = true := by decide
theorem test_wf_bufRd_beyond : Instr.wf Params.default (.bufRd .byte 1024) = false ∧
    Instr.wf Params.default (.bufRd .byte 1023) = true := by decide

/-! ### Decoding: every constructor, from words written out by hand -/

theorem test_decode_commands : dec (.command 0x00000000) = some .nop ∧ dec (.command 0x00000001) = some .crcInit ∧
    dec (.command 0b0000_0000_0000_0000_0000_0000_000_0_0010) = some (.crcBlock false) ∧
    dec (.command 0b0000_0000_0000_0000_0000_0000_000_1_0010) = some (.crcBlock true) ∧
    dec (.command 0b0000_0000_0000_0000_00000001_000_0_0011) = some (.encodeFrame 1) ∧
    dec (.command 0b0000_0000_0000_0000_11001000_000_0_0100) = some (.decodeFrame 200) := by decide
theorem test_decode_reserved : dec (.command 0x5) = some .reserved5 ∧ dec (.command 0x6) = some .reserved6 ∧
    dec (.command 0x7) = some .reserved7 ∧ dec (.command 0x8) = some .reserved8 ∧ dec (.command 0x9) = some .reserved9 ∧
    dec (.command 0xA) = some .reservedA ∧ dec (.command 0xB) = some .reservedB ∧ dec (.command 0xC) = some .reservedC ∧
    dec (.command 0xD) = some .reservedD ∧ dec (.command 0xE) = some .reservedE ∧
    dec (.command 0xF) = some .reservedF := by decide
theorem test_decode_reserved_bits : dec (.command 0xFFFFFFF0) = some .nop ∧
    dec (.command 0xFFFF02E3) = some (.encodeFrame 2) := by decide
theorem test_decode_control : dec (w4 0b0_0000_0000_0000_0000 3) = some (.wrCtrl 3) ∧
    dec (w4 0b0_0000_0000_0000_0100 0xE) = some (.wrStatus 0xE) ∧
    dec (w4 0b0_0000_0000_0000_1000 0x103) = some (.wrCmd 0x103) := by decide
theorem test_decode_crc_writes : dec (w4 0x0001C 1) = some (.wrCrcConfig .poly 1) ∧
    dec (w4 0x00020 2) = some (.wrCrcConfig .init 2) ∧ dec (w4 0x00024 3) = some (.wrCrcConfig .xorout 3) ∧
    dec (w4 0x00028 4) = some (.wrCrcConfig .cfg 4) ∧ dec (w4 0x0002C 5) = some (.wrCrcState 5) ∧
    dec (w4 0x00034 6) = some (.wrCrcData8 6) ∧ dec (w4 0x00038 7) = some (.wrCrcData32 7) := by decide
theorem test_decode_operand_writes : dec (w4 0x0000C 1) = some (.wrOperand .maxSize 1) ∧
    dec (w4 0x00010 2) = some (.wrOperand .frameBase 2) ∧ dec (w4 0x00014 3) = some (.wrOperand .blkStart 3) ∧
    dec (w4 0x00018 4) = some (.wrOperand .blkLen 4) ∧
    dec (w4 0b0_0000_0001_0000_0000 5) = some (.wrOperand (.desc 0 .hdr) 5) ∧
    dec (w4 0b0_0000_0001_0001_0100 6) = some (.wrOperand (.desc 1 .size) 6) ∧
    dec (w4 0b0_0000_0001_1111_1100 7) = some (.wrOperand (.desc 15 .crcLen) 7) := by decide
theorem test_decode_ro_writes : dec (w4 0x00030 1) = some (.wrRo .crcResult 1) ∧
    dec (w4 0x0003C 1) = some (.wrRo .rxFlag 1) ∧ dec (w4 0x00040 1) = some (.wrRo .rxLen 1) ∧
    dec (w4 0x00044 1) = some (.wrRo .rxType 1) ∧ dec (w4 0x00048 1) = some (.wrRo .rxCrc 1) ∧
    dec (w4 0x0004C 1) = some (.wrRo .calcCrc 1) ∧ dec (w4 0x00050 1) = some (.wrRo .infoBuf 1) ∧
    dec (w4 0x00054 1) = some (.wrRo .infoNdesc 1) := by decide
theorem test_decode_crc_reads : dec (r4 0x0002C) = some .rdCrcState ∧ dec (r4 0x00030) = some .rdCrcResult := by decide
theorem test_decode_reads : dec (r4 0x00000) = some (.rdReg .ctrl) ∧ dec (r4 0x00004) = some (.rdReg .status) ∧
    dec (r4 0x00008) = some (.rdReg .cmd) ∧ dec (r4 0x0000C) = some (.rdReg .maxSize) ∧
    dec (r4 0x00010) = some (.rdReg .frameBase) ∧ dec (r4 0x00014) = some (.rdReg .blkStart) ∧
    dec (r4 0x00018) = some (.rdReg .blkLen) ∧ dec (r4 0x0001C) = some (.rdReg .crcPoly) ∧
    dec (r4 0x00020) = some (.rdReg .crcInit) ∧ dec (r4 0x00024) = some (.rdReg .crcXorout) ∧
    dec (r4 0x00028) = some (.rdReg .crcCfg) ∧ dec (r4 0x00034) = some (.rdReg .crcData8) ∧
    dec (r4 0x00038) = some (.rdReg .crcData32) ∧ dec (r4 0x0003C) = some (.rdReg .rxFlag) ∧
    dec (r4 0x00040) = some (.rdReg .rxLen) ∧ dec (r4 0x00044) = some (.rdReg .rxType) ∧
    dec (r4 0x00048) = some (.rdReg .rxCrc) ∧ dec (r4 0x0004C) = some (.rdReg .calcCrc) ∧
    dec (r4 0x00050) = some (.rdReg .infoBuf) ∧ dec (r4 0x00054) = some (.rdReg .infoNdesc) ∧
    dec (r4 0x00118) = some (.rdReg (.desc 1 .crcStart)) := by decide
theorem test_decode_window : dec (txn true 0b1_0000_0000_0010_1000 0 0x39) = some (.bufWr .byte 0x28 0x39) ∧
    dec (txn true 0b1_0000_0000_0100_0100 1 0xBBAA) = some (.bufWr .half 0x44 0xBBAA) ∧
    dec (txn true 0x10020 2 0x34333231) = some (.bufWr .word 0x20 0x34333231) ∧
    dec (txn false 0x103FF 0 0) = some (.bufRd .byte 0x3FF) ∧ dec (txn false 0x10048 1 0) = some (.bufRd .half 0x48) ∧
    dec (txn false 0x10008 2 0) = some (.bufRd .word 8) := by decide

/-- 95_test_vectors.md §5, and size = 3 of R84. -/
theorem test_decode_rejects : decErr (txn true 0x103FF 1 0x1234) = some .misaligned ∧
    decErr (w4 0x10400 0) = some .beyondBuffer ∧ decErr (txn true 0x103FF 0 0) = none ∧
    decErr (r4 0x00002) = some .misaligned ∧ decErr (w4 0x00058 0) = some .unmapped ∧
    decErr (r4 0x00200) = some .unmapped ∧ decErr (txn true 0x00000 0 0) = some .badSize ∧
    decErr (txn false 0x10000 3 0) = some .badSize ∧ decErr (r4 0x000FC) = some .unmapped ∧
    decErr (r4 0x0FFFC) = some .unmapped := by decide

theorem test_decodeTableWord : decodeTableWord 8 0x03 = some (.encodeFrame 0) ∧ decodeTableWord 8 0x0F = some .reservedF ∧
    decodeTableWord 24 0x00034 = some (.wrCrcData8 0) ∧ decodeTableWord 24 0x00030 = some .rdCrcResult ∧
    decodeTableWord 24 0x00050 = some (.rdReg .infoBuf) ∧
    decodeTableWord 24 0x00100 = some (.wrOperand (.desc 0 .hdr) 0) ∧
    decodeTableWord 24 0x10000 = some (.bufWr .byte 0 0) := by decide
theorem test_withFetchWord_command : (after (step (State.reset.withFetchWord 8 0x5))).map State.statusWord = some 0x306 := by
  decide
theorem test_withFetchWord_bus : (after (step (State.reset.withFetchWord 24 0x50))).map State.rdata = some 1024 := by decide

/-! ### The CRC function (95_test_vectors.md §2.1, §2.2) -/

/-- "123456789". -/
def check9 : List Byte := [0x31, 0x32, 0x33, 0x34, 0x35, 0x36, 0x37, 0x38, 0x39]

theorem test_update_refin0 : CrcConf.update { State.reset.crcConf with refin := false } 0 0x80 = 0x690CE0EE ∧
    CrcConf.update { State.reset.crcConf with refin := false } 0 0xFF = 0xB1F740B4 := by decide +kernel
theorem test_crc_bzip2 : CrcConf.crc { State.reset.crcConf with refin := false, refout := false } check9 = 0xFC891918 := by
  decide +kernel
theorem test_crc_iscsi : CrcConf.crc { State.reset.crcConf with poly := 0x1EDC6F41 } check9 = 0xE3069283 := by
  decide +kernel
theorem test_crc_posix : CrcConf.crc { State.reset.crcConf with init := 0, refin := false, refout := false } check9 =
    0x765E7680 := by decide +kernel

/-! ### Commands -/

/-- §4: STATUS 0x002. -/
theorem test_nop : (after (runRaw (.command 0xFFFFFFF0) (busy 0xFFFFFFF0))).map State.statusWord = some 0x002 := by decide
/-- §2.4, R150. -/
theorem test_crcInit : (after (exec .crcInit { busy 1 with crcState := 0x1208C43E, crcInit := 0xFFFFFFFE })).map
    (fun s => (s.crcState, s.statusWord)) = some (0xFFFFFFFE, 0x002) := by decide
/-- §6 P2: CRC_STATE 0x3EB69F38. -/
theorem test_crcBlock : (after (exec (.crcBlock true)
    { State.reset with crcPoly := 0x1EDC6F41, blkStart := 0x20, blkLen := 9, buf := Memory.writeBytes [] 0x20 check9 })).map (fun s => (s.crcState, s.statusWord)) =
    some (0x3EB69F38, 0x002) := by decide +kernel
/-- §2.4: no wrap, RANGE_ERROR, STATUS 0x506. -/
theorem test_crcBlock_range : (after (exec (.crcBlock true)
    { State.reset with blkStart := 0xFFFFFFFF, blkLen := 2, crcState := 5 })).map (fun s => (s.crcState, s.statusWord)) = some (5, 0x506) := by decide
/-- §3.1 row 1; row 7 with base 0: ORDER 1, the range over the header. -/
theorem test_encode : (after (exec (.encodeFrame 0) zeroed)).map
    (fun s => (s.buf.map Prod.snd, s.calcCrc, s.statusWord)) = some (frame7, 0x74022B0D, 0x002) ∧
    (after (exec (.encodeFrame 0) (frameState
    { hdr := 0x81341203, size := 10, crcStart := 0, crcLen := 6 } 16 [0, 0, 0, 0, 0xAA, 0xBB]))).map
    (fun s => (s.buf.map Prod.snd, s.calcCrc)) =
    some ([0x7E, 0x12, 0x34, 0x03, 0xAA, 0xBB, 0xEF, 0x9E, 0xE6, 0x38], 0xEF9EE638) := by decide +kernel
/-- §3.2: BUFFER_TOO_SMALL, the frame unchanged; RANGE_ERROR; DESC_ERROR for VALID 0, for SIZE 7, for 3 + 6 > 12 - 4, and
before BUFFER_TOO_SMALL. -/
theorem test_encode_precheck : (after (exec (.encodeFrame 0) { framed with maxSize := 11 })).map
      (fun s => (s.statusWord, s.buf == framed.buf)) = some (0x106, true) ∧
    (after (exec (.encodeFrame 0) { framed with frameBase := 1016 })).map State.statusWord = some 0x506 ∧
    (after (exec (.encodeFrame 0) (frameState { desc7 with hdr := 0x000C0007 } 12 frame7))).map State.statusWord =
      some 0x406 ∧
    (after (exec (.encodeFrame 0) (frameState { hdr := 0x800C0007, size := 7, crcStart := 0, crcLen := 0 } 12 frame7))).map
      State.statusWord = some 0x406 ∧
    (after (exec (.encodeFrame 0) (frameState { desc7 with crcLen := 6 } 12 frame7))).map State.statusWord = some 0x406 ∧
    (after (exec (.encodeFrame 0) (frameState { desc7 with hdr := 0x000C0007 } 0 frame7))).map State.statusWord =
      some 0x406 := by decide
/-- §3.3 row 1; offset 3 <- 0x06. -/
theorem test_decode : (after (exec (.decodeFrame 0) framed)).map
    (fun s => (s.statusWord, s.rxFlag, s.rxLen, s.rxType, s.rxCrc, s.calcCrc)) =
    some (0x032, 0x7E, 0x000C, 0x07, 0x74022B0D, 0x74022B0D) ∧
    (after (exec (.decodeFrame 0) { framed with buf := framed.buf.write 3 0x06 })).map
    (fun s => (s.statusWord, s.rxFlag, s.rxLen, s.rxType, s.rxCrc, s.calcCrc)) =
    some (0x216, 0x00, 0x000C, 0x06, 0x74022B0D, 0x496202BD) := ⟨by decide +kernel, by decide +kernel⟩
/-- §3.2: index 200, and VALID 0: DESC_ERROR. -/
theorem test_decode_desc_error : (after (runRaw (.command 0x0000C804) { framed with rxFlag := 0x7E })).map
      (fun s => (s.statusWord, s.rxFlag)) = some (0x406, 0) ∧
    (after (exec (.decodeFrame 0) (frameState { desc7 with hdr := 0x000C0007 } 12 frame7))).map State.statusWord =
      some 0x406 := by decide
/-- §4: each reserved opcode, STATUS 0x306. -/
theorem test_reserved : ∀ i ∈ [Instr.reserved5, .reserved6, .reserved7, .reserved8, .reserved9, .reservedA, .reservedB,
    .reservedC, .reservedD, .reservedE, .reservedF],
    (after (exec i (busy 5))).map (fun s => (s.statusWord, s.pending)) = some (0x306, none) := by decide

/-! ### Host operations -/

/-- §2.4: upper bits ignored. -/
theorem test_wrCrcData8 : (after (exec (.wrCrcData8 0xFFFFFF31) State.reset)).map State.crcState = some 0x1208C43E := by
  decide +kernel
/-- §2.4. -/
theorem test_wrCrcData32 : (after (exec (.wrCrcData32 0x38373635) { State.reset with crcState := 0x3AF83826 })).map
    State.crcState = some 0x0AA4F8A6 := by decide +kernel
/-- R159. -/
theorem test_wrCrcState : (after (exec (.wrCrcState 0x3AF83826) State.reset)).map
    (fun s => (s.crcState, s.crcInit)) = some (0x3AF83826, 0xFFFFFFFF) := by decide
/-- §2.4: CRC_RESULT of 0x9B63D02C, with XOROUT as at reset and 0. -/
theorem test_rdCrcResult : (after (exec .rdCrcResult { State.reset with crcState := 0x9B63D02C })).map State.rdata =
      some 0xCBF43926 ∧
    (after (exec .rdCrcResult { State.reset with crcState := 0x9B63D02C, crcXorout := 0 })).map State.rdata =
      some 0x340BC6D9 := by decide +kernel
/-- R163; while a NOP is in flight the read is the plain value (R239). -/
theorem test_rdCrcState : (after (exec .rdCrcState { busy 0 with crcState := 0x9B63D02C })).map State.rdata =
    some 0x9B63D02C := by decide
/-- §4: CRC_CFG <- 0xFFFFFFFF reads 3. -/
theorem test_wrCrcConfig : (after (exec (.wrCrcConfig .cfg 0xFFFFFFFF) State.reset)).map State.crcCfg = some 3 := by decide
/-- §4: dropped while busy, STATUS 0x009. -/
theorem test_wrCrcConfig_busy : (after (exec (.wrCrcConfig .poly 0) (busy 1))).map
    (fun s => (s.crcPoly, s.statusWord)) = some (0x04C11DB7, 0x009) := by decide
/-- R230. -/
theorem test_wrCmd : (after (exec (.wrCmd 0x103) State.reset)).map (fun s => (s.pending, s.statusWord)) =
    some (some 0x103, 0x001) := by decide
/-- §4: dropped while busy. -/
theorem test_wrCmd_busy : (after (exec (.wrCmd 0) (busy 1))).map (fun s => (s.pending, s.status.overrun)) =
    some (some 1, true) := by decide
/-- §4: CTRL <- 0xFFFFFFFD reads 1; a soft reset with a CRC_INIT in flight does not store bit 0. -/
theorem test_wrCtrl : (after (exec (.wrCtrl 0xFFFFFFFD) State.reset)).map State.ctrlWord = some 1 ∧
    (after (exec (.wrCtrl 3) { busy 1 with ie := true, crcPoly := 0, buf := [(4, 9)] })).map
    (fun s => (s.ctrlWord, s.statusWord, s.crcPoly, s.pending, s.buf.map Prod.fst)) =
    some (0, 0, 0x04C11DB7, none, [4]) := by decide
/-- §4: STATUS 0x236, write 2: 0x234. -/
theorem test_wrStatus : (after (exec (.wrStatus 2) { State.reset with status :=
    { done := true, err := true, overrun := false, flagOk := true, typeOk := true, result := .checksumMismatch } })).map
    State.statusWord = some 0x234 := by decide
/-- §4: INFO_BUF 0x400, INFO_NDESC 0x10. -/
theorem test_rdReg_info : (after (exec (.rdReg .infoBuf) State.reset)).map State.rdata = some 0x400 ∧
    (after (exec (.rdReg .infoNdesc) State.reset)).map State.rdata = some 0x10 := by decide
/-- R31, R54: DESC[0].SIZE. -/
theorem test_rdReg_desc : (after (exec (.rdReg (.desc 0 .size)) framed)).map State.rdata = some 12 := by decide
/-- §4: DESC0_HDR <- 0xFFFFFFFF reads 0x81FFFFFF. -/
theorem test_wrOperand_hdr : (after (exec (.wrOperand (.desc 0 .hdr) 0xFFFFFFFF) State.reset)).map
    (fun s => (s.desc 0).hdr) = some 0x81FFFFFF := by decide
/-- R239: only the named word. -/
theorem test_wrOperand_word : (after (exec (.wrOperand (.desc 15 .crcLen) 0x12345678) State.reset)).map
    (fun s => ((s.desc 15).crcLen, (s.desc 15).crcStart, (s.desc 14).crcLen)) = some (0x12345678, 0, 0) := by decide
/-- §4: no effect, no OVERRUN, busy or not. -/
theorem test_wrRo : after (exec (.wrRo .infoBuf 5) (busy 1)) = some (busy 1) := by decide
/-- §6 P5: `wrh 0x44, 0xBBAA`. -/
theorem test_bufWr : (after (exec (.bufWr .half 0x44 0xBBAA) State.reset)).map State.buf =
    some [(0x44, 0xAA), (0x45, 0xBB)] := by decide
/-- §5: W1 0x103FF is legal; the upper bytes of wdata are not written. -/
theorem test_bufWr_last : (after (exec (.bufWr .byte 0x3FF 0x12345678) State.reset)).map State.buf =
    some [(0x3FF, 0x78)] := by decide
/-- §5: R4 0x10000 and R4 0x10008 after the P3 frame. -/
theorem test_bufRd : (after (exec (.bufRd .word 0) framed)).map State.rdata = some 0x070C007E ∧
    (after (exec (.bufRd .word 8) framed)).map State.rdata = some 0x74022B0D := by decide
/-- §5: R1 of a byte never written; a window access while busy. -/
theorem test_bufRd_faults : faultOf (exec (.bufRd .byte 0) State.reset) = some (.uninitRead 0) ∧
    faultOf (exec (.bufRd .byte 0) (busy 0)) = some (.bufferRace 0x10000) := by decide
/-- §6 P8a to P8d. -/
theorem test_bus_errors : faultOf (runRaw (w4 0x00058 0) State.reset) = some (.busError 0x058) ∧
    faultOf (runRaw (r4 0x00002) State.reset) = some (.busError 0x002) ∧
    faultOf (runRaw (txn true 0x103FF 1 0x1234) State.reset) = some (.busError 0x103FF) ∧
    faultOf (runRaw (w4 0x10400 0) (busy 1)) = some (.busError 0x10400) := by decide
/-- R292: a soft reset that aborts an ENCODE loses exactly the header and checksum bytes; an aborted ENCODE whose precheck
fails, and an aborted DECODE, lose nothing. -/
theorem test_wrCtrl_abort : (after (exec (.wrCtrl 2) { framed with pending := some 0x003 })).map (fun s => s.buf) =
      some [(4, 0), (5, 0), (6, 0), (7, 0)] ∧
    (after (exec (.wrCtrl 2) { framed with pending := some 0x003, maxSize := 11 })).map State.buf =
      some framed.buf ∧
    (after (exec (.wrCtrl 2) { framed with pending := some 0x004 })).map State.buf = some framed.buf := by decide
/-- The memory keeps its canonical form: a rewrite replaces, an insertion sorts. -/
theorem test_memory_canonical : Memory.write [(1, 5), (4, 6)] 4 7 = [(1, 5), (4, 7)] ∧
    Memory.write [(1, 5), (4, 6)] 2 7 = [(1, 5), (2, 7), (4, 6)] := by decide

/-! ### Witnesses: for each statement with hypotheses, a concrete state and operands that meet them, clause by clause -/

/-- The type-7 frame at the last legal base, zeroed (§3.2: 1012 + 12 = 1024). -/
def zeroedLast : State := { zeroed with frameBase := 1012, buf := Memory.writeBytes [] 1012 (List.replicate 12 0) }

theorem witness_ResetReadsTheResetColumn : (15#8).toNat < 16 := by decide
theorem witness_PowerOnResetRestoresEveryRegister :
    State.events { busy 3 with events := [.powerOn] } = .powerOn :: [] := rfl
theorem witness_CtrlWriteStoresEnableOrSoftResets : (1#32).getLsbD 1 = false ∧ (2#32).getLsbD 1 = true ∧
    State.abortLoses { framed with pending := some 3 } 0 ∧ State.abortLoses { framed with pending := some 3 } 3 ∧
    State.abortLoses { framed with pending := some 3 } 8 ∧ State.abortLoses { framed with pending := some 3 } 11 ∧
    ¬ State.encodeWrites framed 0 4 ∧ ¬ State.encodeWrites framed 0 7 ∧ ¬ State.encodeWrites framed 0 12 :=
  ⟨by decide, by decide, ⟨3, rfl, by decide, by decide, by decide⟩, ⟨3, rfl, by decide, by decide, by decide⟩,
    ⟨3, rfl, by decide, by decide, by decide⟩, ⟨3, rfl, by decide, by decide, by decide⟩, by decide, by decide,
    by decide⟩
theorem witness_PendingCommandEndsOnlyByCompletionOrReset :
    (∃ t, step (busy 0) = .next t ∧ t.pending = none) ∧
    (∃ t, step { busy 0 with events := [hostRead 4] } = .next t ∧ t.pending = some 0) ∧
    (∃ t, step { busy 0 with events := [hostWrite 0 2] } = .next t ∧ t.pending = none) ∧
    (∃ t, step { busy 0 with events := [.powerOn] } = .next t ∧ t.pending = none) :=
  ⟨⟨_, rfl, rfl⟩, ⟨_, rfl, rfl⟩, ⟨_, rfl, rfl⟩, ⟨_, rfl, rfl⟩⟩
theorem witness_OperandsFrozenFromIssueToCompletion :
    (∀ j ≤ 1, ∃ u : State, Sys2Proof.core.run j { busy 0 with events := [hostRead 4, hostWrite 0xC 5] } = .next u ∧
      u.pending ≠ none) ∧
    ∃ t, Sys2Proof.core.run 1 { busy 0 with events := [hostRead 4, hostWrite 0xC 5] } = .next t := by
  refine ⟨fun j hj => ?_, _, rfl⟩
  interval_cases j
  · exact ⟨_, rfl, by decide⟩
  · exact ⟨_, rfl, by decide⟩
theorem witness_IssueMakesTheEngineBusy : State.reset.pending = none := rfl
theorem witness_BusyEngineDropsWrites : (busy 1).pending = some 1 ∧ (15#8).toNat < (busy 1).params.ndesc ∧
    (1#32).getLsbD 1 = false ∧ (2#32).getLsbD 1 = true ∧ inWindow (busy 1).params .word 1020 := by decide
theorem witness_EveryCompletionSetsDoneAndFreesTheEngine :
    ((busy 5).pending = some 5 ∧ (busy 5).engineNext ∧ ∃ t, step (busy 5) = .next t) ∧
    (State.engineNext { busy 5 with events := [.engine] } ∧ ∃ t, step { busy 5 with events := [.engine] } = .next t) ∧
    (State.reset.pending = none ∧ State.reset.events = []) :=
  ⟨⟨rfl, .inl rfl, _, rfl⟩, ⟨.inr ⟨[], rfl⟩, _, rfl⟩, rfl, rfl⟩
theorem witness_NopCompletesWithOk : (0xFFFFFFF0#32).extractLsb' 0 4 = 0x0#4 := by decide
theorem witness_ReservedOpcodeCompletesWithIllegalCmd : 5 ≤ ((0x00000005#32).extractLsb' 0 4).toNat ∧
    5 ≤ ((0xFFFFFFFF#32).extractLsb' 0 4).toNat := by decide
theorem witness_CrcInitLoadsTheInitialValue : (0xFFFFFFF1#32).extractLsb' 0 4 = 0x1#4 := by decide
theorem witness_StatusWriteClearsByOnes : (0xE#32).getLsbD 1 = true ∧ (0xE#32).getLsbD 2 = true ∧
    (0xE#32).getLsbD 3 = true ∧ (0#32).getLsbD 1 = false ∧ (0#32).getLsbD 2 = false ∧ (0#32).getLsbD 3 = false := by
  decide
theorem witness_StatusReadLayout : ∀ r : ResultCode, ∃ s : State, s.status.result = r := fun r =>
  ⟨{ State.reset with status := { Status.reset with result := r } }, rfl⟩
theorem witness_InterruptFollowsDoneAndEnable :
    (State.engineNext { busy 0 with ie := true } ∧ ∃ t, step { busy 0 with ie := true } = .next t) ∧
    (∃ s : State, s.status.done = true) ∧ (2#32).getLsbD 1 = true ∧ (2#32).getLsbD 0 = false :=
  ⟨⟨.inl rfl, _, rfl⟩, ⟨{ State.reset with status := { Status.reset with done := true } }, rfl⟩, by decide, by decide⟩
theorem witness_RegisterReadReturnsItsValue : (15#8).toNat < State.reset.params.ndesc ∧
    State.reset.params.ndesc ≤ (16#8).toNat := by decide
theorem witness_CrcReadReturnsStateOrAFreeValue : State.reset.pending = none ∧
    ((3#32).extractLsb' 0 4 ≠ 0x1#4 ∧ (3#32).extractLsb' 0 4 ≠ 0x2#4) ∧ (1#32).extractLsb' 0 4 = 0x1#4 ∧
    (0x12#32).extractLsb' 0 4 = 0x2#4 := by decide
theorem witness_OperandWriteStoresTheMaskedValue : State.reset.pending = none ∧
    (15#8).toNat < State.reset.params.ndesc ∧ State.reset.descs.length = State.reset.params.ndesc := by decide
theorem witness_DescriptorWriteReadsBack : State.reset.pending = none ∧ (15#8).toNat < State.reset.params.ndesc ∧
    State.reset.descs.length = State.reset.params.ndesc ∧ State.reset.params.legal ∧
    (BitVec.ofNat 17 (0x100 + 16 * (15#8).toNat + 4 * 3) : Addr) = 0x1FC ∧ 3 < 4 := by decide
theorem witness_ReadsChangeOnlyThePort :
    ∃ t, step { busy 1 with events := [.bus { we := false, addr := 0x2C, size := 2, wdata := 0 }] } = .next t :=
  ⟨_, rfl⟩
theorem witness_StreamByteWriteFeedsTheLowByte : State.reset.pending = none ∧ (busy 1).pending = some 1 ∧
    (0xFFFFFF31#32).extractLsb' 0 8 = (0x31#32).extractLsb' 0 8 := by decide
theorem witness_StreamWordWriteEqualsFourByteWrites : State.reset.pending = none := rfl
theorem witness_StateLoadAndConfigWrites : State.reset.pending = none ∧ (busy 1).pending = some 1 := by decide

theorem witness_ReadOnlyWriteHasNoEffect : (0x054 : Addr) ∈
      ([0x030, 0x03C, 0x040, 0x044, 0x048, 0x04C, 0x050, 0x054] : List Addr) ∧
    State.events { busy 1 with events := [hostWrite 0x054 5] } = hostWrite 0x054 5 :: [] := ⟨by decide, rfl⟩

/-- "123456789" at the last nine bytes of the buffer. -/
def blockLast : State :=
  { State.reset with blkStart := 1015, blkLen := 9, buf := Memory.writeBytes [] 1015 check9 }

theorem witness_CrcBlockProcessesTheRange :
    (blockLast.blkStart.toNat + blockLast.blkLen.toNat ≤ blockLast.params.bufBytes ∧
      blockLast.written blockLast.blkStart.toNat blockLast.blkLen.toNat) ∧
    (State.reset.params.bufBytes < (1024#32).toNat + (1#32).toNat) ∧
    (Memory.read? (Memory.writeBytes [] 1015 (check9.take 8)) (1015 + 8) = none ∧
      State.written { blockLast with buf := Memory.writeBytes [] 1015 (check9.take 8) } 1015 8) ∧
    (0x12#32).extractLsb' 0 4 = 0x2#4 := by decide
theorem witness_BlockAgreesWithByteStream : blockLast.pending = none ∧ check9.length = blockLast.blkLen.toNat ∧
    (∀ k < blockLast.blkLen.toNat, blockLast.buf.read? (blockLast.blkStart.toNat + k) = check9[k]?) ∧
    (∃ t u v, State.reset.streamBytes [1] = .next t ∧ t.streamBytes [2] = .next u ∧
      State.reset.streamBytes ([1] ++ [2]) = .next v) := by
  refine ⟨rfl, rfl, by decide, _, _, _, rfl, rfl, rfl⟩
theorem witness_CornerCasesOfTheParameters : CrcConf.poly { State.reset.crcConf with poly := 0 } = 0 ∧
    4 ≤ [0x07, 0, 0, (0 : Byte)].length ∧ CrcConf.init { State.reset.crcConf with init := 0, xorout := 0 } = 0 := by
  decide
theorem witness_OneBitFlipChangesTheCrcIffPolyNonzero : 1 ≤ 1 ∧ [(0x07 : Byte)].length = 1 ∧ 0 < 1 ∧ 7 < 8 ∧
    State.reset.crcConf.poly ≠ 0 ∧ flipBit [0x07] 0 7 = [0x87] := by decide
theorem witness_EncodeBuildsHeaderAndChecksum : zeroedLast.precheckPasses 0 ∧
    ∀ k < (zeroedLast.desc 0).C, 4 ≤ (zeroedLast.desc 0).S + k →
      (zeroedLast.buf.read? (zeroedLast.base + (zeroedLast.desc 0).S + k)).isSome = true := by decide
theorem witness_EncodePrecheckReportsTheFirstFailure :
    (framed.params.ndesc ≤ (16#8).toNat ∧ (0x7FFFFFFF#32).getLsbD 31 = false ∧
      (State.desc (frameState { desc7 with hdr := 0x000C0007 } 12 []) 0).hdr.getLsbD 31 = false ∧
      (State.desc (frameState { desc7 with size := 7 } 12 []) 0).size.toNat < 8 ∧
      desc7.size.toNat - 4 < (3#32).toNat + (6#32).toNat) ∧
    (framed.descriptorOk 0 ∧ (11#32).toNat < (framed.desc 0).N) ∧
    ((framed.desc 0).N ≤ framed.maxSize.toNat ∧ framed.params.bufBytes < (1013#32).toNat + (framed.desc 0).N) := by
  decide
theorem witness_DecodeRejectClearsTheResultRegisters :
    (¬ framed.precheckPasses 16 ∧ ¬ framed.descriptorOk 16) ∧
    (¬ State.precheckPasses { framed with maxSize := 11 } 0 ∧ State.descriptorOk { framed with maxSize := 11 } 0) ∧
    (¬ State.precheckPasses { framed with frameBase := 1013 } 0 ∧ State.descriptorOk { framed with frameBase := 1013 } 0) := by
  decide
theorem witness_DecodeParsesAndValidates : framed.precheckPasses 0 ∧
    framed.buf.read? framed.base = some 0x7E ∧ framed.buf.read? (framed.base + 1) = some 0x00 ∧
    framed.buf.read? (framed.base + 2) = some 0x0C ∧ framed.buf.read? (framed.base + 3) = some 0x07 ∧
    (∀ k < (framed.desc 0).C, framed.buf.read? (framed.base + (framed.desc 0).S + k) = [0x07, 0, 0, 0, (0 : Byte)][k]?) ∧
    framed.buf.read? (framed.base + (framed.desc 0).N - 4) = some 0x0D ∧
    framed.buf.read? (framed.base + (framed.desc 0).N - 3) = some 0x2B ∧
    framed.buf.read? (framed.base + (framed.desc 0).N - 2) = some 0x02 ∧
    framed.buf.read? (framed.base + (framed.desc 0).N - 1) = some 0x74 := by decide
theorem witness_EncodeThenDecodeRoundTrips : ∃ t u : State, exec (.encodeFrame 0) zeroedLast = .next t ∧
    t.status.result = .ok ∧ State.sameCodec t u 0 ∧
    ∀ j < (zeroedLast.desc 0).N, u.buf.read? (zeroedLast.base + j) = t.buf.read? (zeroedLast.base + j) := by
  obtain ⟨t, ht, hr⟩ := next_of_any (o := exec (.encodeFrame 0) zeroedLast)
    (P := fun t => decide (t.status.result = .ok)) (by decide +kernel)
  exact ⟨t, { t with ie := true }, ht, of_decide_eq_true hr, ⟨rfl, rfl, rfl, rfl, rfl, rfl, rfl, rfl⟩, fun _ _ => rfl⟩
theorem witness_SizeGuardRefusesAndWritesNothing : zeroedLast.descriptorOk 0 ∧
    zeroedLast.base + (zeroedLast.desc 0).N ≤ zeroedLast.params.bufBytes ∧ (11#32).toNat < (zeroedLast.desc 0).N := by
  decide
theorem witness_accepted : ∃ t, exec (.decodeFrame 0) framed = .next t ∧ t.status.result = .ok := by
  obtain ⟨t, ht, hr⟩ := next_of_any (o := exec (.decodeFrame 0) framed)
    (P := fun t => decide (t.status.result = .ok)) (by decide +kernel)
  exact ⟨t, ht, of_decide_eq_true hr⟩
theorem witness_OneBitFlipInTheRangeIsDetected : framed.crcPoly ≠ 0 ∧
    (∃ t, exec (.decodeFrame 0) framed = .next t ∧ t.status.result = .ok) ∧ 4 < (framed.desc 0).C ∧ 7 < 8 ∧
    framed.buf.read? (framed.base + (framed.desc 0).S + 4) = some 0 :=
  ⟨by decide, witness_accepted, by decide, by decide, by decide⟩
theorem witness_OneBitFlipInTheChecksumIsDetected :
    (∃ t, exec (.decodeFrame 0) framed = .next t ∧ t.status.result = .ok) ∧ 3 < 4 ∧ 7 < 8 ∧
    framed.buf.read? (framed.base + (framed.desc 0).N - 4 + 3) = some 0x74 :=
  ⟨witness_accepted, by decide, by decide, by decide⟩
theorem witness_ChangeOutsideTheRangeKeepsTheVerdict : framed.precheckPasses 0 ∧
    (∃ t, exec (.decodeFrame 0) framed = .next t ∧ t.status.result = .ok) ∧
    (2 < (framed.desc 0).N - 4 ∧ 2 < (framed.desc 0).S) ∧
    (∃ t, exec (.decodeFrame 0) (frameState { desc7 with crcLen := 4 } 12 frame7) = .next t) ∧
    (7 < (desc7.size.toNat) - 4 ∧ desc7.crcStart.toNat + (4#32).toNat ≤ 7) :=
  ⟨by decide, witness_accepted, by decide,
    (next_of_any (P := fun _ => true) (by decide +kernel)).imp fun _ h => h.1, by decide⟩
theorem witness_ExtractInvertsPlace : place 0x74022B0D false = [0x0D, 0x2B, 0x02, 0x74] ∧
    place 0x74022B0D true = [0x74, 0x02, 0x2B, 0x0D] := by decide
theorem witness_CodecFaultsOnUnwrittenBytes :
    (State.precheckPasses (frameState desc7 12 (frame7.take 7)) 0 ∧ 4 < desc7.C ∧
      State.written (frameState desc7 12 (frame7.take 7)) 0 4 ∧
      (frameState desc7 12 (frame7.take 7)).buf.read? (0 + desc7.S + 4) = none ∧
      State.written (frameState desc7 12 (frame7.take 7)) (0 + desc7.S) 4) ∧
    ((frameState desc7 12 (frame7.take 3)).buf.read? 3 = none ∧ State.written (frameState desc7 12 (frame7.take 3)) 0 3) ∧
    ((frameState desc7 12 (frame7.take 11)).buf.read? (0 + desc7.N - 4 + 3) = none ∧
      State.written (frameState desc7 12 (frame7.take 11)) (0 + desc7.N - 4) 3) := by decide
theorem witness_BufferWriteStoresLittleEndian : State.reset.pending = none ∧
    (1020#16).toNat % AccessSize.word.bytes = 0 ∧ (1020#16).toNat + AccessSize.word.bytes ≤ State.reset.params.bufBytes := by
  decide
theorem witness_BufferReadComposesLittleEndian : zeroedLast.pending = none ∧
    ((1023#16).toNat + 1 ≤ zeroedLast.params.bufBytes ∧ zeroedLast.buf.read? 1023 = some 0) ∧
    ((1022#16).toNat % 2 = 0 ∧ (1022#16).toNat + 2 ≤ zeroedLast.params.bufBytes ∧ zeroedLast.buf.read? 1022 = some 0) ∧
    ((1020#16).toNat % 4 = 0 ∧ (1020#16).toNat + 4 ≤ zeroedLast.params.bufBytes ∧ zeroedLast.buf.read? 1020 = some 0 ∧
      zeroedLast.buf.read? 1021 = some 0) := by decide
theorem witness_WindowAccessFaultsInOrder :
    (¬ inWindow State.reset.params .word 1022 ∧ ¬ inWindow State.reset.params .byte 1024) ∧
    (inWindow (busy 0).params .word 1020 ∧ (busy 0).pending ≠ none) ∧
    (Memory.read? (Memory.writeBytes [] 1020 [1, 2, 3]) 1023 = none ∧
      State.written { State.reset with buf := Memory.writeBytes [] 1020 [1, 2, 3] } 1020 3) := by decide
theorem witness_BufferWriteThenReadReturnsTheData : State.reset.pending = none ∧
    inWindow State.reset.params .half 1022 := by decide
theorem witness_DecodeInvertsEncode : Params.default.legal ∧ Params.legal { bufBytes := 65536, ndesc := 240 } ∧
    Instr.wf { bufBytes := 65536, ndesc := 240 } (.wrOperand (.desc 239 .crcLen) 1) = true ∧
    Instr.wf { bufBytes := 65536, ndesc := 240 } (.bufWr .word 65532 1) = true := by decide
theorem witness_busError_058 : busErrorTxn Params.default { we := true, addr := 0x058, size := 2, wdata := 0 } := by decide
theorem witness_noBusError_054 : ¬ busErrorTxn Params.default { we := true, addr := 0x054, size := 2, wdata := 0 } := by
  decide
theorem witness_noBusError_1FC : ¬ busErrorTxn Params.default { we := false, addr := 0x1FC, size := 2, wdata := 0 } := by
  decide
theorem witness_busError_200 : busErrorTxn Params.default { we := false, addr := 0x200, size := 2, wdata := 0 } := by decide
theorem witness_busError_10400 : busErrorTxn Params.default { we := false, addr := 0x10400, size := 0, wdata := 0 } := by
  decide
theorem witness_noBusError_103FF : ¬ busErrorTxn Params.default { we := false, addr := 0x103FF, size := 0, wdata := 0 } := by
  decide
theorem witness_BusErrorExactlyWhenTheRulesSay : State.reset.params.legal ∧
    State.events { State.reset with events := [hostRead 0x058] } = .bus { we := false, addr := 0x058, size := 2, wdata := 0 } :: [] :=
  ⟨by decide, rfl⟩
theorem witness_TransactionDecodeLosesNoBit : Params.default.legal ∧
    decode Params.default (.bus { we := false, addr := 0x1FC, size := 2, wdata := 7 }) = .ok (.rdReg (.desc 15 .crcLen)) :=
  ⟨by decide, rfl⟩
theorem witness_OpcodeSelectsTheOperation : (0xFFFFFFF2#32).extractLsb' 0 4 = 0x2#4 ∧
    (0x0000FF13#32).extractLsb' 0 4 = 0x3#4 ∧ (0x00000004#32).extractLsb' 0 4 = 0x4#4 ∧
    5 ≤ ((0x5#32).extractLsb' 0 4).toNat := by decide
theorem witness_StepRunsTheDecodedOperation :
    decode Params.default (.bus { we := true, addr := 0x008, size := 2, wdata := 3 }) = .ok (.wrCmd 3) ∧
    decode Params.default (.bus { we := true, addr := 0x058, size := 2, wdata := 3 }) =
      .error { addr := 0x058, cause := .unmapped } ∧
    (busy 3).pending = some 3 ∧ (busy 3).events = [] ∧
    decode (busy 3).params (.command 3) = .ok (.encodeFrame 0) := ⟨rfl, rfl, rfl, rfl, rfl⟩
theorem reset_inv : State.reset.Inv :=
  ⟨by decide, by decide, by decide, by decide, by decide, by decide⟩
theorem witness_StepKeepsTheStateRules : State.reset.Inv ∧ ∃ t, step State.reset = .next t := ⟨reset_inv, _, rfl⟩
theorem witness_BufferByteChangesOnlyByTheseEvents :
    (∃ t, step { State.reset with events := [.bus { we := true, addr := 0x103FF, size := 0, wdata := 5 }] } = .next t ∧
      t.buf.read? 1023 ≠ none) ∧
    (∃ t, step { zeroed with pending := some 3 } = .next t ∧ t.buf.read? 0 ≠ zeroed.buf.read? 0) ∧
    (∃ t, step { framed with pending := some 3, events := [hostWrite 0 2] } = .next t ∧
      t.buf.read? 11 ≠ framed.buf.read? 11) ∧
    (∃ t, step { framed with events := [.powerOn] } = .next t ∧ t.buf.read? 4 ≠ framed.buf.read? 4) := by
  refine ⟨⟨_, rfl, by decide⟩, ?_, ?_, ⟨_, rfl, by decide⟩⟩
  · obtain ⟨t, ht, hr⟩ := next_of_any (o := step { zeroed with pending := some 3 })
      (P := fun t => decide (t.buf.read? 0 ≠ zeroed.buf.read? 0)) (by decide +kernel)
    exact ⟨t, ht, of_decide_eq_true hr⟩
  · obtain ⟨t, ht, hr⟩ := next_of_any (o := step { framed with pending := some 3, events := [hostWrite 0 2] })
      (P := fun t => decide (t.buf.read? 11 ≠ framed.buf.read? 11)) (by decide +kernel)
    exact ⟨t, ht, of_decide_eq_true hr⟩
theorem witness_CrcStateChangesOnlyByTheseEvents :
    (∃ t, step { State.reset with events := [hostWrite 0x02C 5] } = .next t ∧ t.crcState ≠ 0xFFFFFFFF) ∧
    (∃ t, step { busy 1 with crcInit := 0 } = .next t ∧ t.crcState ≠ 0xFFFFFFFF) ∧
    (∃ t, step { State.reset with crcState := 0, events := [hostWrite 0 2] } = .next t ∧ t.crcState ≠ 0) ∧
    (∃ t, step { State.reset with crcState := 0, events := [.powerOn] } = .next t ∧ t.crcState ≠ 0) :=
  ⟨⟨_, rfl, by decide⟩, ⟨_, rfl, by decide⟩, ⟨_, rfl, by decide⟩, ⟨_, rfl, by decide⟩⟩
theorem witness_ParserResultsChangeOnlyByDecodeOrReset : ∃ t, step { busy 4 with rxFlag := 5 } = .next t ∧ t.rxFlag = 0 :=
  ⟨_, rfl, rfl⟩
theorem witness_PollingReachesCompletion : ∃ s : State, s.pending = some 3 ∧
    s.events = List.replicate 1 (hostRead 0x004) ∧ s.params.legal ∧ s.written 0 s.params.bufBytes :=
  ⟨{ busy 3 with
      events := List.replicate 1 (hostRead 0x004)
      params := { bufBytes := 8, ndesc := 1 }
      buf := Memory.writeBytes [] 0 (List.replicate 8 0) }, rfl, rfl, by decide, by decide⟩
theorem witness_BothOrdersOfClearAndCompletion : ∃ s : State, s.pending = some 3 ∧ s.written 0 s.params.bufBytes ∧
    (2#32).getLsbD 1 = true :=
  ⟨{ busy 3 with
      params := { bufBytes := 8, ndesc := 1 }
      buf := Memory.writeBytes [] 0 (List.replicate 8 0) }, rfl, by decide, by decide⟩

end Sys2Proof.Tests
end

/-! The invariant State.Inv (00_scope.md R8; 10_state.md R32, R44, R53, R54, R59) is kept by every step. It speaks of four
fields only: `params`, `descs`, `crcCfg` and `buf`. So one lemma per way of changing these four, and then one lemma per kind
of turn, by the case lemma of that turn (command_cases, host_cases, step_cases). -/

namespace Sys2Proof.Machine

/-! ### The buffer stays inside BUF_BYTES -/

/-- Consecutive bytes written below `n` leave every listed offset below `n`. -/
theorem Memory.lt_of_mem_writeBytes {m : Memory} {a n : Nat} {vs : List Byte} (hm : ∀ c ∈ m, c.1 < n)
    (hv : a + vs.length ≤ n) : ∀ c ∈ m.writeBytes a vs, c.1 < n := by
  intro c hc
  rcases Memory.mem_writeBytes vs hc with ⟨-, hlt⟩ | hc
  · omega
  · exact hm c hc

/-- R292: an abort only takes bytes away. -/
theorem State.bufferAfterAbort_sublist (s : State) : s.bufferAfterAbort.Sublist s.buf := by
  unfold State.bufferAfterAbort
  split
  · exact List.Sublist.refl _
  · split
    · exact List.filter_sublist.trans List.filter_sublist
    · exact List.Sublist.refl _

/-! ### Reserved bits read 0 -/

/-- A word masked to its named bits has its reserved bits 0. -/
theorem reserved_zero_of_mask (w mask : Word) : w &&& mask &&& ~~~mask = 0 := by
  rw [BitVec.and_assoc, BitVec.and_not_self]
  exact BitVec.and_zero

/-- R54, R239: a descriptor write keeps the header's reserved bits 0, whichever word it writes. -/
theorem Desc.setWord_reserved_zero {e : Desc} (he : e.hdr &&& ~~~hdrMask = 0) (k : DescWord) (w : Word) :
    (e.setWord k w).hdr &&& ~~~hdrMask = 0 := by
  cases k with
  | hdr => exact reserved_zero_of_mask w hdrMask
  | size => exact he
  | crcStart => exact he
  | crcLen => exact he

/-- Every descriptor index, above the table too, names a header with its reserved bits 0. -/
theorem State.Inv.desc_reserved_zero {s : State} (h : s.Inv) (d : BitVec 8) :
    (s.desc d).hdr &&& ~~~hdrMask = 0 := by
  by_cases hd : d.toNat < s.descs.length
  · rw [State.desc, List.getD_eq_getElem _ _ hd]
    exact h.hdr_reserved_zero _ (List.getElem_mem hd)
  · rw [State.desc, List.getD_eq_default _ _ (not_lt.mp hd)]
    rfl

/-! ### The ways a turn changes the four fields -/

/-- None of the four fields changes. -/
theorem State.Inv.of_same {s t : State} (h : s.Inv) (hp : t.params = s.params) (hd : t.descs = s.descs)
    (hc : t.crcCfg = s.crcCfg) (hb : t.buf = s.buf) : t.Inv where
  params_legal := hp ▸ h.params_legal
  descs_length := by rw [hd, hp, h.descs_length]
  hdr_reserved_zero := hd ▸ h.hdr_reserved_zero
  cfg_reserved_zero := hc ▸ h.cfg_reserved_zero
  buf_canonical := hb ▸ h.buf_canonical
  buf_in_range := by rw [hb, hp]; exact h.buf_in_range

/-- Bytes are written inside BUF_BYTES. -/
theorem State.Inv.writeBytes {s : State} (h : s.Inv) {a : Nat} {vs : List Byte}
    (hv : a + vs.length ≤ s.params.bufBytes) : State.Inv { s with buf := s.buf.writeBytes a vs } :=
  { h with
    buf_canonical := Memory.wf_writeBytes vs h.buf_canonical a
    buf_in_range := Memory.lt_of_mem_writeBytes h.buf_in_range hv }

/-- R290: the registers and the table are reset, over a buffer that meets its rules. -/
theorem State.Inv.resetRegisters {s : State} (hp : s.params.legal) {m : Memory} (hw : m.wf)
    (hr : ∀ c ∈ m, c.1 < s.params.bufBytes) : State.Inv { s.resetRegisters with buf := m } where
  params_legal := hp
  descs_length := List.length_replicate
  hdr_reserved_zero e he := by rw [List.eq_of_mem_replicate he]; rfl
  cfg_reserved_zero := by show State.reset.crcCfg &&& ~~~crcCfgMask = 0; decide
  buf_canonical := hw
  buf_in_range := hr

/-- R290: with legal parameters a power-on reset meets the rules, whatever the state before it. -/
theorem State.Inv.powerOnReset {s : State} (hp : s.params.legal) : s.powerOnReset.Inv :=
  State.Inv.resetRegisters hp Memory.wf_nil (by simp)

/-- R292: a soft reset keeps the rules. -/
theorem State.Inv.softReset {s : State} (h : s.Inv) : s.softReset.Inv :=
  State.Inv.resetRegisters h.params_legal (h.buf_canonical.sublist s.bufferAfterAbort_sublist)
    fun c hc => h.buf_in_range c (s.bufferAfterAbort_sublist.subset hc)

/-- R239: an operand write keeps the rules. -/
theorem State.Inv.setOperand {s : State} (h : s.Inv) (r : OperandReg) (w : Word) : (s.setOperand r w).Inv := by
  cases r with
  | maxSize => exact h.of_same rfl rfl rfl rfl
  | frameBase => exact h.of_same rfl rfl rfl rfl
  | blkStart => exact h.of_same rfl rfl rfl rfl
  | blkLen => exact h.of_same rfl rfl rfl rfl
  | desc i k =>
    exact { h with
      descs_length := List.length_set.trans h.descs_length
      hdr_reserved_zero := fun e he => by
        rcases List.mem_or_eq_of_mem_set he with he | rfl
        · exact h.hdr_reserved_zero e he
        · exact Desc.setWord_reserved_zero (h.desc_reserved_zero i) k w }

/-- R165: a CRC parameter write keeps the rules. -/
theorem State.Inv.setCrcReg {s : State} (h : s.Inv) (r : CrcReg) (w : Word) : (s.setCrcReg r w).Inv := by
  cases r with
  | poly => exact h.of_same rfl rfl rfl rfl
  | init => exact h.of_same rfl rfl rfl rfl
  | xorout => exact h.of_same rfl rfl rfl rfl
  | cfg => exact { h with cfg_reserved_zero := reserved_zero_of_mask w crcCfgMask }

/-- R190: an ENCODE whose precheck passes writes its header and its checksum inside BUF_BYTES. -/
theorem State.Inv.encoded {s : State} (h : s.Inv) {d : BitVec 8} (hp : s.precheckPasses d) (c : Word) :
    (s.encoded (s.buf.writeBytes s.frameBase.toNat (hdrBytes (s.desc d))) d c).Inv := by
  obtain ⟨h8, -, hfit⟩ := hp.bounds
  simp only [State.base, Desc.N] at h8 hfit
  have hhdr : State.Inv { s with buf := s.buf.writeBytes s.frameBase.toNat (hdrBytes (s.desc d)) } :=
    h.writeBytes (by rw [hdrBytes_length]; omega)
  have hsum : s.checksumAt d + (place c (s.desc d).order).length ≤ s.params.bufBytes := by
    rw [place_length, State.checksumAt]; omega
  exact (hhdr.writeBytes hsum).of_same rfl rfl rfl rfl

/-! ### The turns -/

/-- R233: every completion of a command keeps the rules; only a successful ENCODE touches one of the four fields. -/
theorem State.Inv.of_command {s t : State} {w : Word} (h : s.Inv) (ht : exec (decodeCommand w) s = .next t) : t.Inv := by
  rcases command_cases ht with ⟨-, rfl⟩ | ⟨-, rfl⟩ | ⟨-, -, rfl⟩ | ⟨-, -, _, -, rfl⟩ | ⟨-, -, rfl⟩ |
    ⟨-, hp, _, -, rfl⟩ | ⟨-, -, rfl⟩ | ⟨-, -, _, -, rfl⟩ | ⟨-, rfl⟩
  · exact h.of_same rfl rfl rfl rfl
  · exact h.of_same rfl rfl rfl rfl
  · exact h.of_same rfl rfl rfl rfl
  · exact h.of_same rfl rfl rfl rfl
  · exact h.of_same rfl rfl rfl rfl
  · exact h.encoded hp _
  · exact h.of_same rfl rfl rfl rfl
  · exact h.of_same rfl rfl rfl rfl
  · exact h.of_same rfl rfl rfl rfl

/-- R116: every host transaction that is answered without `err` keeps the rules. -/
theorem State.Inv.of_host {s t : State} {tx : BusTxn} {i : Instr} (h : s.Inv) (hd : decodeTxn s.params tx = .ok i)
    (ht : exec i s = .next t) : t.Inv := by
  rcases host_cases hd ht with ⟨_, -, -, rfl⟩ | ⟨_, -, rfl⟩ | ⟨_, -, rfl⟩ | ⟨-, -, rfl⟩ | ⟨-, -, _, rfl⟩ |
    ⟨-, -, r, v, -, rfl⟩ | ⟨-, -, r, v, rfl⟩ | ⟨-, _, _, _, -, -, rfl⟩ | ⟨-, rfl⟩ | ⟨-, _, _, rfl⟩ |
    ⟨-, -, ha, sz, -, ⟨-, hfit⟩, rfl⟩
  · exact h.softReset
  · exact h.of_same rfl rfl rfl rfl
  · exact h.of_same rfl rfl rfl rfl
  · exact h.of_same rfl rfl rfl rfl
  · exact h.of_same rfl rfl rfl rfl
  · exact h.setOperand r v
  · exact h.setCrcReg r v
  · exact h.of_same rfl rfl rfl rfl
  · exact h
  · exact h.of_same rfl rfl rfl rfl
  · rw [(setWidth_windowAddr ha).1] at hfit
    exact h.writeBytes (by rwa [leBytes_length])

/-- Every step keeps the rules: the engine's completion, an idle turn, a host transaction, a power-on reset. -/
theorem State.Inv.of_step {s t : State} (h : s.Inv) (ht : step s = .next t) : t.Inv := by
  have hf : s.afterFetch.Inv := h.of_same rfl rfl rfl rfl
  rcases step_cases ht with ⟨w, -, -, hc⟩ | ⟨-, -, rfl⟩ | ⟨tx, es, i, -, hd, hx⟩ | ⟨es, -, rfl⟩
  · exact hf.of_command hc
  · exact hf
  · exact hf.of_host hd hx
  · exact State.Inv.powerOnReset hf.params_legal

/-- Settles O53, by the cases of a step: each turn changes the four fields the invariant speaks of in one of the ways
above. -/
theorem stepKeepsTheStateRules : Obligations.StepKeepsTheStateRules := by
  intro s t h ht
  exact h.of_step ht

/-- Settles O52: the reset state is its own power-on reset, and its parameters are legal. -/
theorem resetMeetsTheStateRules : Obligations.ResetMeetsTheStateRules :=
  State.Inv.powerOnReset (s := State.reset) (by decide)

end Sys2Proof.Machine

/-! What a step leaves unchanged (10_state.md R35, R45, R49, R59 to R63): one frame lemma for the engine's completions and
one for the host's transactions, each read off the case lemma of that turn; then the statements about what can change the
buffer, CRC_STATE, the parser's registers and the operands of a command in flight. -/

namespace Sys2Proof.Machine

/-! ### Relations between the state before a turn and the state after it -/

/-- The parser's registers and flags are alike (R49, R201). -/
abbrev State.sameParser (s t : State) : Prop :=
  t.rxFlag = s.rxFlag ∧ t.rxLen = s.rxLen ∧ t.rxType = s.rxType ∧ t.rxCrc = s.rxCrc ∧
    t.status.flagOk = s.status.flagOk ∧ t.status.typeOk = s.status.typeOk

/-- The command in flight, and everything it reads, are alike (R60, R232). -/
abbrev State.sameCommand (s t : State) : Prop :=
  t.pending = s.pending ∧ State.sameOperands s t ∧ t.buf = s.buf

theorem State.sameParser.refl (s : State) : State.sameParser s s := ⟨rfl, rfl, rfl, rfl, rfl, rfl⟩

theorem State.sameOperands.refl (s : State) : State.sameOperands s s :=
  ⟨rfl, rfl, rfl, rfl, rfl, rfl, rfl, rfl, rfl, rfl, rfl⟩

theorem State.sameCommand.refl (s : State) : State.sameCommand s s := ⟨rfl, .refl s, rfl⟩

theorem State.sameOperands.trans {s t u : State} (hst : State.sameOperands s t) (htu : State.sameOperands t u) :
    State.sameOperands s u := by
  simp only [State.sameOperands, htu, hst, and_self]

theorem State.sameCommand.trans {s t u : State} (hst : State.sameCommand s t) (htu : State.sameCommand t u) :
    State.sameCommand s u := by
  obtain ⟨hpending, hoperands, hbuf⟩ := hst
  obtain ⟨hpending', hoperands', hbuf'⟩ := htu
  exact ⟨hpending'.trans hpending, hoperands.trans hoperands', hbuf'.trans hbuf⟩

/-! ### Register writes leave the parser, CRC_STATE and the buffer alone -/

theorem State.setOperand_sameParser (s : State) (r : OperandReg) (v : Word) :
    State.sameParser s (s.setOperand r v) := by
  cases r <;> exact .refl s

@[simp] theorem State.setOperand_crcState (s : State) (r : OperandReg) (v : Word) :
    (s.setOperand r v).crcState = s.crcState := by cases r <;> rfl

@[simp] theorem State.setOperand_buf (s : State) (r : OperandReg) (v : Word) :
    (s.setOperand r v).buf = s.buf := by cases r <;> rfl

theorem State.setCrcReg_sameParser (s : State) (r : CrcReg) (v : Word) :
    State.sameParser s (s.setCrcReg r v) := by
  cases r <;> exact .refl s

@[simp] theorem State.setCrcReg_crcState (s : State) (r : CrcReg) (v : Word) :
    (s.setCrcReg r v).crcState = s.crcState := by cases r <;> rfl

@[simp] theorem State.setCrcReg_buf (s : State) (r : CrcReg) (v : Word) :
    (s.setCrcReg r v).buf = s.buf := by cases r <;> rfl

/-! ### Which buffer bytes an ENCODE and an abort can change -/

/-- R190: an ENCODE whose precheck passes writes its header and checksum bytes only. -/
theorem State.read?_encoded_of_not_encodeWrites {s : State} {d : BitVec 8} {o : Nat} (hp : s.precheckPasses d)
    (ho : ¬ s.encodeWrites d o) (c : Word) :
    (s.encoded (s.buf.writeBytes s.frameBase.toNat (hdrBytes (s.desc d))) d c).buf.read? o = s.buf.read? o := by
  obtain ⟨h8, -, -⟩ := hp.bounds
  simp only [State.encodeWrites, State.base, Desc.N] at ho h8
  show ((s.buf.writeBytes _ _).writeBytes (s.checksumAt d) (place c _)).read? o = _
  rw [Memory.read?_writeBytes_outside _ _ (by rw [place_length, State.checksumAt]; omega),
    Memory.read?_writeBytes_outside _ _ (by rw [hdrBytes_length]; omega)]

/-- R292: an abort leaves every byte that it does not lose. -/
theorem State.read?_bufferAfterAbort_of_not_abortLoses {s : State} {o : Nat} (ho : ¬ s.abortLoses o) :
    s.bufferAfterAbort.read? o = s.buf.read? o := by
  unfold State.bufferAfterAbort
  split
  · rfl
  · rename_i w hw
    split
    · rename_i hc
      obtain ⟨hop, hok⟩ := hc
      have hp := (s.codecCheck_eq_ok _).mp hok
      have hne : ¬ s.encodeWrites (cmdDesc w) o := fun he => ho ⟨w, hw, hop, hp, he⟩
      obtain ⟨h8, -, -⟩ := hp.bounds
      simp only [State.encodeWrites, State.base, Desc.N] at hne h8
      rw [Memory.read?_erase_outside _ (by omega), Memory.read?_erase_outside _ (by omega)]
    · rfl

/-! ### The frame of a completion -/

/-- What the completion of the command word `w` can change of the parser's results, CRC_STATE and the buffer. -/
structure CommandFrame (s t : State) (w : Word) : Prop where
  parser : State.sameParser s t ∨ cmdOp w = 0x4
  crcState : t.crcState = s.crcState ∨ cmdOp w = 0x1 ∨ cmdOp w = 0x2
  buf : t.buf = s.buf ∨ (cmdOp w = 0x3 ∧ s.precheckPasses (cmdDesc w) ∧
    ∀ o, ¬ s.encodeWrites (cmdDesc w) o → t.buf.read? o = s.buf.read? o)

/-- A completion that only reports its code. -/
theorem CommandFrame.complete (s : State) (w : Word) (code : ResultCode) : CommandFrame s (s.complete code) w :=
  ⟨.inl (.refl s), .inl rfl, .inl rfl⟩

/-- R45, R49, R59: only ENCODE writes the buffer, only CRC_INIT and CRC_BLOCK write CRC_STATE, only DECODE the parser's
registers. -/
theorem commandFrame_of_exec {s t : State} {w : Word} (h : exec (decodeCommand w) s = .next t) :
    CommandFrame s t w := by
  rcases command_cases h with ⟨-, rfl⟩ | ⟨hop, rfl⟩ | ⟨-, -, rfl⟩ | ⟨hop, -, _, -, rfl⟩ | ⟨-, -, rfl⟩ |
    ⟨hop, hp, _, -, rfl⟩ | ⟨hop, -, rfl⟩ | ⟨hop, -, _, -, rfl⟩ | ⟨-, rfl⟩
  · exact .complete s w _
  · exact ⟨.inl (.refl s), .inr (.inl hop), .inl rfl⟩
  · exact .complete s w _
  · exact ⟨.inl (.refl s), .inr (.inr hop), .inl rfl⟩
  · exact .complete s w _
  · exact ⟨.inl (.refl s), .inl rfl,
      .inr ⟨hop, hp, fun _ ho => State.read?_encoded_of_not_encodeWrites hp ho _⟩⟩
  · exact ⟨.inr hop, .inl rfl, .inl rfl⟩
  · exact ⟨.inr hop, .inl rfl, .inl rfl⟩
  · exact .complete s w _

/-! ### The frame of a host transaction -/

/-- What a host transaction that is no soft reset can change of the parser's results, CRC_STATE, the buffer, and the
command in flight with its operands. -/
structure HostFrame (s t : State) (tx : BusTxn) : Prop where
  parser : State.sameParser s t
  crcState : t.crcState = s.crcState ∨ (s.pending = none ∧ ∃ a w, (a = 0x02C ∨ a = 0x034 ∨ a = 0x038) ∧
    tx = { we := true, addr := a, size := 2, wdata := w })
  buf : t.buf = s.buf ∨ (s.pending = none ∧ tx.we = true ∧ 0x10000 ≤ tx.addr.toNat ∧
    ∀ o, ¬ (tx.addr.toNat - 0x10000 ≤ o ∧ o < tx.addr.toNat - 0x10000 + 2 ^ tx.size.toNat) →
      t.buf.read? o = s.buf.read? o)
  command : s.pending ≠ none → State.sameCommand s t

/-- R45, R49, R59, R60: a host transaction is a soft reset or keeps to its frame. -/
theorem hostFrame_of_exec {s t : State} {tx : BusTxn} {i : Instr} (h : exec i s = .next t)
    (hd : decodeTxn s.params tx = .ok i) :
    (∃ v, v.getLsbD 1 = true ∧ tx = { we := true, addr := 0x000, size := 2, wdata := v } ∧ t = s.softReset) ∨
      HostFrame s t tx := by
  rcases host_cases hd h with h | ⟨_, -, rfl⟩ | ⟨_, -, rfl⟩ | ⟨-, -, rfl⟩ | ⟨hi, -, _, rfl⟩ | ⟨hi, -, r, v, -, rfl⟩ |
    ⟨hi, -, r, v, rfl⟩ | ⟨hi, a, w, _, ha, htx, rfl⟩ | ⟨-, rfl⟩ | ⟨-, _, _, rfl⟩ | ⟨hi, hwe, ha, sz, hsz, -, rfl⟩
  · exact .inl h
  · exact .inr ⟨.refl s, .inl rfl, .inl rfl, fun _ => .refl s⟩
  · exact .inr ⟨.refl s, .inl rfl, .inl rfl, fun _ => .refl s⟩
  · exact .inr ⟨.refl s, .inl rfl, .inl rfl, fun _ => .refl s⟩
  · exact .inr ⟨.refl s, .inl rfl, .inl rfl, fun hb => absurd hi hb⟩
  · exact .inr ⟨s.setOperand_sameParser r v, .inl (s.setOperand_crcState r v), .inl (s.setOperand_buf r v),
      fun hb => absurd hi hb⟩
  · exact .inr ⟨s.setCrcReg_sameParser r v, .inl (s.setCrcReg_crcState r v), .inl (s.setCrcReg_buf r v),
      fun hb => absurd hi hb⟩
  · exact .inr ⟨.refl s, .inr ⟨hi, a, w, ha, htx⟩, .inl rfl, fun hb => absurd hi hb⟩
  · exact .inr ⟨.refl _, .inl rfl, .inl rfl, fun _ => .refl _⟩
  · exact .inr ⟨.refl s, .inl rfl, .inl rfl, fun _ => .refl s⟩
  · refine .inr ⟨.refl s, .inl rfl, .inr ⟨hi, hwe, ha, fun o ho => ?_⟩, fun hb => absurd hi hb⟩
    rw [← sizeOfField_bytes hsz] at ho
    exact Memory.read?_writeBytes_outside _ _ (by rw [leBytes_length]; omega)

/-! ### A command in flight keeps what it reads -/

/-- R60, R232: a step that starts and ends with a command in flight leaves that command and all it reads alone. -/
theorem sameCommand_of_step {s t : State} (h : step s = .next t) (hs : s.pending ≠ none) (ht : t.pending ≠ none) :
    State.sameCommand s t := by
  rcases step_cases h with ⟨w, -, -, hc⟩ | ⟨-, hi, -⟩ | ⟨tx, es, i, -, hd, hx⟩ | ⟨es, -, rfl⟩
  · exact absurd (command_completes hc).1 ht
  · exact absurd hi hs
  · rcases hostFrame_of_exec hx hd with ⟨v, -, -, rfl⟩ | hf
    · exact absurd rfl ht
    · exact hf.command hs
  · exact absurd rfl ht

theorem pending_ne_none_of_run_zero {s : State}
    (h : ∃ u, Sys2Proof.core.run 0 s = .next u ∧ u.pending ≠ none) : s.pending ≠ none := by
  obtain ⟨u, hu, hp⟩ := h
  obtain rfl : s = u := by injection hu
  exact hp

/-- The same along a run, by induction on its length: the first step by the lemma above, the rest by hypothesis. -/
theorem sameCommand_of_run {k : Nat} {s t : State}
    (hbusy : ∀ j ≤ k, ∃ u, Sys2Proof.core.run j s = .next u ∧ u.pending ≠ none)
    (h : Sys2Proof.core.run k s = .next t) : State.sameCommand s t := by
  induction k generalizing s with
  | zero =>
    obtain rfl : s = t := by injection h
    exact .refl s
  | succ k ih =>
    obtain ⟨s', hs', hrun⟩ := run_succ_next h
    have hbusy' : ∀ j ≤ k, ∃ u, Sys2Proof.core.run j s' = .next u ∧ u.pending ≠ none := fun j hj => by
      rw [← run_next hs' j]
      exact hbusy (j + 1) (by omega)
    have hs := pending_ne_none_of_run_zero (hbusy 0 (by omega))
    have ht := pending_ne_none_of_run_zero (hbusy' 0 (by omega))
    exact (sameCommand_of_step hs' hs ht).trans (ih hbusy' hrun)

/-- Settles O5, by induction on the length of the run; the buffer is even the same list. -/
theorem operandsFrozenFromIssueToCompletion : Obligations.OperandsFrozenFromIssueToCompletion := by
  intro k s t hbusy h
  obtain ⟨hp, hops, hbuf⟩ := sameCommand_of_run hbusy h
  exact ⟨hp, hops, fun o => by rw [hbuf]⟩

/-! ### What can change a buffer byte, CRC_STATE and the parser's results -/

/-- Settles O54, by the cases of a step: a completion and a host transaction by their frames, a soft reset by the bytes
an abort loses. -/
theorem bufferByteChangesOnlyByTheseEvents : Obligations.BufferByteChangesOnlyByTheseEvents := by
  intro s t o h hne
  rcases step_cases h with ⟨w, he, hp, hc⟩ | ⟨-, -, rfl⟩ | ⟨tx, es, i, hev, hd, hx⟩ | ⟨es, hev, -⟩
  · rcases (commandFrame_of_exec hc).buf with hb | ⟨hop, hpre, hb⟩
    · exact absurd (congrArg (Memory.read? · o) hb) hne
    · exact .inr (.inl ⟨he, w, hp, hop, hpre, by_contra fun ho => hne (hb o ho)⟩)
  · exact absurd rfl hne
  · rcases hostFrame_of_exec hx hd with ⟨v, hv, rfl, rfl⟩ | hf
    · have hlost : s.afterFetch.abortLoses o :=
        by_contra fun ho => hne (State.read?_bufferAfterAbort_of_not_abortLoses ho)
      exact .inr (.inr (.inl ⟨hlost, v, es, hv, hev⟩))
    · rcases hf.buf with hb | ⟨hi, hwe, ha, hb⟩
      · exact absurd (congrArg (Memory.read? · o) hb) hne
      · exact .inl ⟨tx, es, hev, hwe, hi, ha, by_contra fun ho => hne (hb o ho)⟩
  · exact .inr (.inr (.inr ⟨es, hev⟩))

/-- Settles O55, by the cases of a step and the frames of completions and host transactions. -/
theorem crcStateChangesOnlyByTheseEvents : Obligations.CrcStateChangesOnlyByTheseEvents := by
  intro s t h hne
  rcases step_cases h with ⟨w, he, hp, hc⟩ | ⟨-, -, rfl⟩ | ⟨tx, es, i, hev, hd, hx⟩ | ⟨es, hev, -⟩
  · rcases (commandFrame_of_exec hc).crcState with hk | hop
    · exact absurd hk hne
    · exact .inr (.inl ⟨he, w, hp, hop⟩)
  · exact absurd rfl hne
  · rcases hostFrame_of_exec hx hd with ⟨v, hv, rfl, -⟩ | hf
    · exact .inr (.inr (.inl ⟨v, es, hv, hev⟩))
    · rcases hf.crcState with hk | ⟨hi, a, w, ha, rfl⟩
      · exact absurd hk hne
      · exact .inl ⟨a, w, es, ha, hev, hi⟩
  · exact .inr (.inr (.inr ⟨es, hev⟩))

/-- Settles O56, by the cases of a step and the frames of completions and host transactions. -/
theorem parserResultsChangeOnlyByDecodeOrReset : Obligations.ParserResultsChangeOnlyByDecodeOrReset := by
  intro s t h
  rcases step_cases h with ⟨w, he, hp, hc⟩ | ⟨-, -, rfl⟩ | ⟨tx, es, i, hev, hd, hx⟩ | ⟨es, hev, -⟩
  · rcases (commandFrame_of_exec hc).parser with hk | hop
    · exact .inr (.inr (.inr hk))
    · exact .inl ⟨he, w, hp, hop⟩
  · exact .inr (.inr (.inr (State.sameParser.refl s)))
  · rcases hostFrame_of_exec hx hd with ⟨v, hv, rfl, -⟩ | hf
    · exact .inr (.inl ⟨v, es, hv, hev⟩)
    · exact .inr (.inr (.inr hf.parser))
  · exact .inr (.inr (.inl ⟨es, hev⟩))

end Sys2Proof.Machine

/-! Status, interrupt, reset reads and the codec's UninitRead faults (10_state.md R31, R35, R62, R63; 60_exceptions.md R251,
R254, R255). -/

namespace Sys2Proof.Machine

/-! ### The STATUS word (10_state.md R35) -/

theorem State.statusWord_busy (s : State) : s.statusWord.getLsbD 0 = s.busy := by
  simp only [State.statusWord, BitVec.getLsbD_append]
  simp

theorem State.statusWord_done (s : State) : s.statusWord.getLsbD 1 = s.status.done := by
  simp only [State.statusWord, BitVec.getLsbD_append]
  simp

theorem State.statusWord_err (s : State) : s.statusWord.getLsbD 2 = s.status.err := by
  simp only [State.statusWord, BitVec.getLsbD_append]
  simp

theorem State.statusWord_overrun (s : State) : s.statusWord.getLsbD 3 = s.status.overrun := by
  simp only [State.statusWord, BitVec.getLsbD_append]
  simp

theorem State.statusWord_flagOk (s : State) : s.statusWord.getLsbD 4 = s.status.flagOk := by
  simp only [State.statusWord, BitVec.getLsbD_append]
  simp

theorem State.statusWord_typeOk (s : State) : s.statusWord.getLsbD 5 = s.status.typeOk := by
  simp only [State.statusWord, BitVec.getLsbD_append]
  simp

theorem State.statusWord_reserved_low (s : State) : s.statusWord.extractLsb' 6 2 = 0#2 := by
  simp only [State.statusWord, BitVec.extractLsb'_append_eq_ite]
  simp

theorem State.statusWord_result (s : State) : s.statusWord.extractLsb' 8 4 = s.status.result.code := by
  simp only [State.statusWord, BitVec.extractLsb'_append_eq_ite]
  simp

theorem State.statusWord_reserved_high (s : State) : s.statusWord.extractLsb' 12 20 = 0#20 := by
  simp only [State.statusWord, BitVec.extractLsb'_append_eq_ite]
  simp

theorem State.busy_iff (s : State) : s.busy = true ↔ s.pending ≠ none := by
  simp [State.busy, Option.isSome_iff_ne_none]

/-- A read of a mapped register answers its value (R239). -/
theorem exec_rdReg {r : ReadReg} {s : State} (h : r.wf s.params = true) :
    exec (.rdReg r) s = .next { s with rdata := s.readReg r } := if_pos h

/-- Settles O13: the word is State.statusWord, read field by field. -/
theorem statusReadLayout : Obligations.StatusReadLayout := by
  intro s
  have hcode : ∀ code, s.status.result = code → s.statusWord.extractLsb' 8 4 = code.code := by
    rintro _ rfl
    exact s.statusWord_result
  refine ⟨s.statusWord, exec_rdReg rfl, ?_, s.statusWord_done, s.statusWord_err, s.statusWord_overrun,
    s.statusWord_flagOk, s.statusWord_typeOk, s.statusWord_reserved_low, s.statusWord_reserved_high,
    hcode _, hcode _, hcode _, hcode _, hcode _, hcode _⟩
  rw [s.statusWord_busy, s.busy_iff]

/-! ### The interrupt (R62, R255) -/

theorem State.irq_iff (s : State) : s.irq = true ↔ s.ie = true ∧ s.status.done = true := by
  simp [State.irq]

theorem State.irq_eq_false_iff (s : State) : s.irq = false ↔ s.ie = false ∨ s.status.done = false :=
  Bool.and_eq_false_iff

@[simp] theorem Status.writeOneToClear_done (st : Status) (w : Word) :
    (st.writeOneToClear w).done = (st.done && !w.getLsbD 1) := rfl

theorem exec_wrCtrl_enable {s : State} {w : Word} (h : w.getLsbD 1 = false) :
    exec (.wrCtrl w) s = .next { s with ie := w.getLsbD 0 } := by
  simp only [exec, execWrCtrl, h, Bool.false_eq_true, if_false]

theorem exec_wrCtrl_softReset {s : State} {w : Word} (h : w.getLsbD 1 = true) :
    exec (.wrCtrl w) s = .next s.softReset := by
  simp only [exec, execWrCtrl, h, if_true]

/-- Settles O14: the completion by command_completes, the register writes by the field each one clears or sets. -/
theorem interruptFollowsDoneAndEnable : Obligations.InterruptFollowsDoneAndEnable := by
  refine ⟨State.irq_iff, ?_, ?_, ?_, ?_⟩
  · intro s t w hp he hie h
    rw [step_engine he hp] at h
    obtain ⟨-, hdone, -, -, hie'⟩ := command_completes h
    exact t.irq_iff.mpr ⟨hie'.trans hie, hdone⟩
  · intro s hdone
    exact ⟨_, exec_wrCtrl_enable (by decide), (State.irq_iff _).mpr ⟨rfl, hdone⟩⟩
  · intro s w hw
    have hdone : (s.status.writeOneToClear w).done = false := by
      rw [Status.writeOneToClear_done, hw, Bool.not_true, Bool.and_false]
    exact ⟨_, rfl, (State.irq_eq_false_iff _).mpr (.inr hdone)⟩
  · intro s w hw
    cases h1 : w.getLsbD 1 with
    | true => exact ⟨_, exec_wrCtrl_softReset h1, rfl⟩
    | false => exact ⟨_, exec_wrCtrl_enable h1, (State.irq_eq_false_iff _).mpr (.inl hw)⟩

/-! ### UninitRead in the codec (R63, R190, R195) -/

/-- Reading four bytes fails at the lowest unwritten offset among them. -/
theorem Memory.readFour_eq_error {m : Memory} {a k : Nat} (hk : k < 4) (hn : m.read? (a + k) = none)
    (hw : ∀ j < k, (m.read? (a + j)).isSome = true) : m.readFour a = .error (a + k) := by
  have written : ∀ j < k, ∃ b, m.read? (a + j) = some b := fun j hj => Option.isSome_iff_exists.mp (hw j hj)
  unfold Memory.readFour
  interval_cases k
  · rw [Nat.add_zero] at hn
    simp only [hn, Nat.add_zero]
  · obtain ⟨b0, h0⟩ := written 0 (by omega)
    rw [Nat.add_zero] at h0
    rw [h0, hn]
  · obtain ⟨b0, h0⟩ := written 0 (by omega)
    obtain ⟨b1, h1⟩ := written 1 (by omega)
    rw [Nat.add_zero] at h0
    rw [h0, h1, hn]
  · obtain ⟨b0, h0⟩ := written 0 (by omega)
    obtain ⟨b1, h1⟩ := written 1 (by omega)
    obtain ⟨b2, h2⟩ := written 2 (by omega)
    rw [Nat.add_zero] at h0
    rw [h0, h1, h2, hn]

/-- R190: the range is read after the header is written, so its lowest unwritten offset lies beyond the header. -/
theorem State.rangeBytes_of_unwritten_beyond_header {s : State} {d : BitVec 8} {k : Nat} (hk : k < (s.desc d).C)
    (h4 : 4 ≤ (s.desc d).S + k) (hn : s.buf.read? (s.base + (s.desc d).S + k) = none)
    (hw : ∀ j < k, 4 ≤ (s.desc d).S + j → (s.buf.read? (s.base + (s.desc d).S + j)).isSome = true) :
    s.rangeBytes (s.buf.writeBytes s.frameBase.toNat (hdrBytes (s.desc d))) d =
      .error (s.base + (s.desc d).S + k) := by
  have beyond : ∀ j, 4 ≤ (s.desc d).S + j →
      (s.buf.writeBytes s.base (hdrBytes (s.desc d))).read? (s.base + (s.desc d).S + j) =
        s.buf.read? (s.base + (s.desc d).S + j) := fun j hj =>
    Memory.read?_writeBytes_outside _ _ (by rw [hdrBytes_length]; omega)
  refine (Memory.readBytes_eq_error _ _ _ _).mpr ⟨k, hk, rfl, (beyond k h4).trans hn, fun j hj => ?_⟩
  by_cases hj4 : 4 ≤ (s.desc d).S + j
  · exact (congrArg Option.isSome (beyond j hj4)).trans (hw j hj hj4)
  · have hlt : (s.desc d).S + j < (hdrBytes (s.desc d)).length := by rw [hdrBytes_length]; omega
    have hin := Memory.read?_writeBytes_inside (hdrBytes (s.desc d)) s.buf s.base hlt
    rw [List.getElem?_eq_getElem hlt, ← Nat.add_assoc] at hin
    exact congrArg Option.isSome hin

theorem exec_encodeFrame_uninitRead {s : State} {d : BitVec 8} {o : Nat} (hp : s.precheckPasses d)
    (h : s.rangeBytes (s.buf.writeBytes s.frameBase.toNat (hdrBytes (s.desc d))) d = .error o) :
    exec (.encodeFrame d) s = .fault (.uninitRead o) := by
  show execEncodeFrame d s = _
  rw [execEncodeFrame_of_ok ((s.codecCheck_eq_ok d).mpr hp), h]

theorem exec_decodeFrame_uninitRead {s : State} {d : BitVec 8} {o : Nat} (hp : s.precheckPasses d)
    (h : s.parseFrame d = .error o) : exec (.decodeFrame d) s = .fault (.uninitRead o) := by
  show execDecodeFrame d s = _
  rw [execDecodeFrame_of_ok ((s.codecCheck_eq_ok d).mpr hp), h]

/-! R195's order of the reads: the header, then the range, then the checksum. -/

theorem State.parseFrame_error_of_header {s : State} {d : BitVec 8} {o : Nat}
    (h : s.buf.readFour s.frameBase.toNat = .error o) : s.parseFrame d = .error o := by
  simp only [State.parseFrame, h]

theorem State.parseFrame_error_of_range {s : State} {d : BitVec 8} {o : Nat} (hh : s.written s.base 4)
    (h : s.rangeBytes s.buf d = .error o) : s.parseFrame d = .error o := by
  obtain ⟨hdr, hhdr⟩ := Memory.readFour_of_written s.buf s.frameBase.toNat hh
  simp only [State.parseFrame, hhdr, h]

theorem State.parseFrame_error_of_checksum {s : State} {d : BitVec 8} {o : Nat} (hh : s.written s.base 4)
    (hr : s.written (s.base + (s.desc d).S) (s.desc d).C) (h : s.buf.readFour (s.checksumAt d) = .error o) :
    s.parseFrame d = .error o := by
  obtain ⟨hdr, hhdr⟩ := Memory.readFour_of_written s.buf s.frameBase.toNat hh
  obtain ⟨bs, hbs, -⟩ := Memory.readBytes_of_written s.buf _ _ hr
  have hrange : s.rangeBytes s.buf d = .ok bs := hbs
  simp only [State.parseFrame, hhdr, hrange, h]

/-- Settles O40: ENCODE by its one read, DECODE by R195's three reads in their order. -/
theorem codecFaultsOnUnwrittenBytes : Obligations.CodecFaultsOnUnwrittenBytes := by
  refine ⟨?_, ?_, ?_, ?_⟩
  · intro s d k hp hk h4 hn hw
    exact exec_encodeFrame_uninitRead hp (State.rangeBytes_of_unwritten_beyond_header hk h4 hn hw)
  · intro s d k hp hk hn hw
    exact exec_decodeFrame_uninitRead hp (State.parseFrame_error_of_header (Memory.readFour_eq_error hk hn hw))
  · intro s d k hp hh hk hn hw
    have hrange : s.rangeBytes s.buf d = .error (s.base + (s.desc d).S + k) :=
      (Memory.readBytes_eq_error _ _ _ _).mpr ⟨k, hk, rfl, hn, hw⟩
    exact exec_decodeFrame_uninitRead hp (State.parseFrame_error_of_range hh hrange)
  · intro s d k hp hh hr hk hn hw
    exact exec_decodeFrame_uninitRead hp
      (State.parseFrame_error_of_checksum hh hr (Memory.readFour_eq_error hk hn hw))

/-! ### What reads at reset (R31, R290) -/

/-- R53: at reset every descriptor index names an all-zero entry, one beyond the table too. -/
@[simp] theorem State.reset_desc (i : BitVec 8) : State.reset.desc i = Desc.zero := by
  simp [State.desc, State.reset]

@[simp] theorem Desc.zero_word (k : DescWord) : Desc.zero.word k = 0 := by cases k <;> rfl

theorem reflect_allOnes (n : Nat) : reflect (BitVec.allOnes n) = BitVec.allOnes n := by
  ext i hi
  simp [reflect, BitVec.getElem_reverse, hi]

/-- R31, R143: at reset CRC_RESULT is the reflected all-ones register against the all-ones XOROUT, hence 0. -/
theorem State.reset_crcResult : State.reset.crcConf.final State.reset.crcState = 0 := by
  show reflect (BitVec.allOnes 32) ^^^ BitVec.allOnes 32 = 0
  rw [reflect_allOnes]
  exact BitVec.xor_self

/-- A table of register values that the reset state holds, entry by entry, is what the reads answer. -/
theorem State.reset_reads_of_table {table : List (ReadReg × Word)}
    (h : ∀ e ∈ table, e.1.wf State.reset.params = true ∧ State.reset.readReg e.1 = e.2) (r : ReadReg) (v : Word)
    (hr : (r, v) ∈ table) : exec (.rdReg r) State.reset = .next { State.reset with rdata := v } := by
  obtain ⟨hwf, hv⟩ := h _ hr
  rw [exec_rdReg hwf, hv]

/-- Settles O1: each register's value by the reset state, read through exec_rdReg and State.readCrc_plain. -/
theorem resetReadsTheResetColumn : Obligations.ResetReadsTheResetColumn := by
  refine ⟨?_, ?_, rfl, ?_, rfl, rfl, fun _ => rfl⟩
  · exact State.reset_reads_of_table (by decide)
  · intro i k hi
    have hwf : (ReadReg.desc i k).wf State.reset.params = true := decide_eq_true hi
    have hv : State.reset.readReg (.desc i k) = 0 := by
      show (State.reset.desc i).word k = 0
      rw [State.reset_desc, Desc.zero_word]
    rw [exec_rdReg hwf, hv]
  · show Host.Outcome.next (State.reset.readCrc _) = _
    rw [State.reset_crcResult, State.readCrc_plain rfl]

end Sys2Proof.Machine

/-! The slave port and the buffer window (20_memory.md R82 to R90, R94; 60_exceptions.md R252, R254, R256): how a window
access answers, the little-endian words it moves, what a read leaves alone, and which operation a turn runs. -/

namespace Sys2Proof.Machine

/-! ### The answers of a window access (R84, R94, R256) -/

theorem State.windowFault_unfit {s : State} {sz : AccessSize} {o : BitVec 16} (h : ¬ inWindow s.params sz o) :
    s.windowFault sz o = some (.busError (windowAddr o)) := if_pos h

theorem State.windowFault_busy {s : State} {sz : AccessSize} {o : BitVec 16} (h : inWindow s.params sz o)
    (hp : s.pending ≠ none) : s.windowFault sz o = some (.bufferRace (windowAddr o)) := by
  rw [State.windowFault, if_neg (not_not.mpr h), if_pos (s.busy_iff.mpr hp)]

theorem State.windowFault_idle {s : State} {sz : AccessSize} {o : BitVec 16} (h : inWindow s.params sz o)
    (hp : s.pending = none) : s.windowFault sz o = none := by
  rw [State.windowFault, if_neg (not_not.mpr h), if_neg fun hb => s.busy_iff.mp hb hp]

/-- A refused access faults the same way as a write and as a read. -/
theorem exec_window_fault {s : State} {sz : AccessSize} {o : BitVec 16} {f : Fault} (h : s.windowFault sz o = some f)
    (w : Word) : exec (.bufWr sz o w) s = .fault f ∧ exec (.bufRd sz o) s = .fault f := by
  simp only [exec, execBufWr, execBufRd, h, and_self]

theorem exec_bufWr_idle {s : State} {sz : AccessSize} {o : BitVec 16} (h : inWindow s.params sz o)
    (hp : s.pending = none) (w : Word) :
    exec (.bufWr sz o w) s = .next { s with buf := s.buf.writeBytes o.toNat (leBytes sz.bytes w) } := by
  simp only [exec, execBufWr, State.windowFault_idle h hp]

theorem exec_bufRd_idle {s : State} {sz : AccessSize} {o : BitVec 16} {bs : List Byte} (h : inWindow s.params sz o)
    (hp : s.pending = none) (hb : s.buf.readBytes o.toNat sz.bytes = .ok bs) :
    exec (.bufRd sz o) s = .next { s with rdata := leWord bs } := by
  simp only [exec, execBufRd, State.windowFault_idle h hp, hb]

theorem exec_bufRd_uninitRead {s : State} {sz : AccessSize} {o : BitVec 16} {a : Nat} (h : inWindow s.params sz o)
    (hp : s.pending = none) (hb : s.buf.readBytes o.toNat sz.bytes = .error a) :
    exec (.bufRd sz o) s = .fault (.uninitRead a) := by
  simp only [exec, execBufRd, State.windowFault_idle h hp, hb]

/-- Settles O43: the first two faults by State.windowFault, the third by the lowest unwritten offset of the read. -/
theorem windowAccessFaultsInOrder : Obligations.WindowAccessFaultsInOrder := by
  refine ⟨?_, ?_, ?_⟩
  · intro s sz o w h
    exact exec_window_fault (State.windowFault_unfit h) w
  · intro s sz o w h hp
    exact exec_window_fault (State.windowFault_busy h hp) w
  · intro s sz o k h hp hk hn hw
    exact exec_bufRd_uninitRead h hp ((Memory.readBytes_eq_error _ _ _ _).mpr ⟨k, hk, rfl, hn, hw⟩)

/-! ### Little-endian words (R85) -/

theorem leBytes_getElem? {n k : Nat} (h : k < n) (w : Word) : (leBytes n w)[k]? = some (byteLane w k) := by
  simp [leBytes, h]

/-- The lowest lane comes first; the other lanes are those of the word one byte down. -/
theorem leBytes_succ (n : Nat) (w : Word) : leBytes (n + 1) w = byteLane w 0 :: leBytes n (w >>> 8) := by
  have lane : ∀ k, byteLane w (k + 1) = byteLane (w >>> 8) k := by
    intro k
    ext i hi
    simp only [byteLane, BitVec.getElem_extractLsb', BitVec.getLsbD_ushiftRight]
    congr 1
    omega
  simp only [leBytes, List.range_succ_eq_map, List.map_cons, List.map_map, List.cons.injEq, true_and]
  exact List.map_congr_left fun k _ => lane k

/-- A byte below a value that fits is the value's low byte: R85's order as concatenation. -/
theorem leWord_cons_of_eq {n : Nat} {bs : List Byte} {v : BitVec n} (h : leWord bs = v.setWidth 32) (b : Byte) :
    leWord (b :: bs) = (v ++ b).setWidth 32 := by
  ext i hi
  by_cases hlow : i < 8
  · simp [leWord, h, BitVec.getLsbD_append, hlow]
  · have hhigh : b.getLsbD i = false := BitVec.getLsbD_of_ge b i (not_lt.mp hlow)
    simp [leWord, h, BitVec.getLsbD_append, hlow, hhigh]

theorem leWord_singleton (b : Byte) : leWord [b] = b.setWidth 32 := by simp [leWord]

/-- The lowest lane below the next n lanes is the word cut to its n + 1 lowest. -/
theorem setWidth_append_byteLane_zero (n : Nat) (w : Word) :
    (((w >>> 8).setWidth (8 * n) ++ byteLane w 0).setWidth 32 : Word) = (w.setWidth (8 * (n + 1))).setWidth 32 := by
  ext i hi
  by_cases hlow : i < 8
  · have hcut : i < 8 * (n + 1) := by omega
    simp [byteLane, BitVec.getLsbD_append, hlow, hcut]
  · have hcut : i - 8 < 8 * n ↔ i < 8 * (n + 1) := by omega
    have hlane : 8 + (i - 8) = i := by omega
    simp [BitVec.getLsbD_append, hlow, hcut, hlane]

/-- The low n bytes of a word, put together again, are the word cut to n bytes. -/
theorem leWord_leBytes (n : Nat) (w : Word) : leWord (leBytes n w) = (w.setWidth (8 * n)).setWidth 32 := by
  induction n generalizing w with
  | zero => rw [Nat.mul_zero, BitVec.eq_nil (w.setWidth 0)]; rfl
  | succ n ih => rw [leBytes_succ, leWord_cons_of_eq (ih _), setWidth_append_byteLane_zero]

theorem leWord_leBytes_toNat (n : Nat) (w : Word) : (leWord (leBytes n w)).toNat = w.toNat % 2 ^ (8 * n) := by
  rw [leWord_leBytes, BitVec.toNat_setWidth, BitVec.toNat_setWidth]
  exact Nat.mod_eq_of_lt (Nat.mod_lt_of_lt w.isLt)

/-! ### Window writes and reads -/

theorem Memory.readBytes_writeBytes (m : Memory) (a : Nat) (vs : List Byte) :
    (m.writeBytes a vs).readBytes a vs.length = .ok vs :=
  (Memory.readBytes_eq_ok _ _ _ _).mpr ⟨rfl, fun _ hk => Memory.read?_writeBytes_inside vs m a hk⟩

/-- Settles O41: what Memory.writeBytes stores inside its range and leaves outside it. -/
theorem bufferWriteStoresLittleEndian : Obligations.BufferWriteStoresLittleEndian := by
  intro s sz o w hp ha hb
  refine ⟨_, exec_bufWr_idle ⟨ha, hb⟩ hp w, rfl, fun k hk => ?_, fun a h => ?_⟩
  · rw [Memory.read?_writeBytes_inside _ _ _ (by rwa [leBytes_length]), leBytes_getElem? hk]
    rfl
  · exact Memory.read?_writeBytes_outside _ _ (by rwa [leBytes_length])

/-- Settles O44: the write leaves the port idle, so the read answers, with the bytes just written. -/
theorem bufferWriteThenReadReturnsTheData : Obligations.BufferWriteThenReadReturnsTheData := by
  intro s sz o w hp ha hb
  have hread := Memory.readBytes_writeBytes s.buf o.toNat (leBytes sz.bytes w)
  rw [leBytes_length] at hread
  exact ⟨_, _, exec_bufWr_idle ⟨ha, hb⟩ hp w, exec_bufRd_idle ⟨ha, hb⟩ hp hread, leWord_leBytes_toNat _ w, rfl⟩

/-- Settles O42: the bytes a read finds by Memory.readBytes, put together one byte at a time by leWord_cons_of_eq. -/
theorem bufferReadComposesLittleEndian : Obligations.BufferReadComposesLittleEndian := by
  refine ⟨?_, ?_, ?_⟩
  · intro s o b0 hp hb h0
    have hread : s.buf.readBytes o.toNat 1 = .ok [b0] := by simp only [Memory.readBytes, h0]
    rw [exec_bufRd_idle ⟨Nat.mod_one _, hb⟩ hp hread, leWord_singleton]
  · intro s o b0 b1 hp ha hb h0 h1
    have hread : s.buf.readBytes o.toNat 2 = .ok [b0, b1] := by simp only [Memory.readBytes, h0, h1]
    rw [exec_bufRd_idle ⟨ha, hb⟩ hp hread, leWord_cons_of_eq (leWord_singleton b1)]
  · intro s o b0 b1 b2 b3 hp ha hb h0 h1 h2 h3
    have hread : s.buf.readBytes o.toNat 4 = .ok [b0, b1, b2, b3] := by
      simp only [Memory.readBytes, Nat.add_assoc, Nat.reduceAdd, h0, h1, h2, h3]
    have hword := leWord_cons_of_eq (leWord_cons_of_eq (leWord_cons_of_eq (leWord_singleton b3) b2) b1) b0
    rw [exec_bufRd_idle ⟨ha, hb⟩ hp hread, hword, BitVec.setWidth_eq]

/-! ### Which operation a turn runs (R82, R83, R90, R233) -/

theorem State.afterFetch_cons {s : State} {e : Event} {es : List Event} (h : s.events = e :: es) :
    s.afterFetch = { s with events := es } := by
  rw [State.afterFetch, h, List.tail_cons]

theorem State.afterFetch_nil {s : State} (h : s.events = []) : s.afterFetch = s := by
  rw [State.afterFetch, h, List.tail_nil, ← h]

/-- Settles O51, by the law of the host's turn and the law of the engine's. -/
theorem stepRunsTheDecodedOperation : Obligations.StepRunsTheDecodedOperation := by
  have command : ∀ {p : Params} {w : Word} {i : Instr}, decode p (.command w) = .ok i → decodeCommand w = i :=
    fun h => Except.ok.inj h
  refine ⟨?_, ?_, ?_, ?_⟩
  · intro s t es i he hd
    have hd : decodeTxn s.params t = .ok i := hd
    rw [step_bus he, hd, State.afterFetch_cons he]
  · intro s t es e he hd
    have hd : decodeTxn s.params t = .error e := hd
    rw [step_bus he, hd]
  · intro s w es i hp he hd
    rw [step_engine (.inr ⟨es, he⟩) hp, command hd, State.afterFetch_cons he]
  · intro s w i hp he hd
    rw [step_engine (.inl he) hp, command hd, State.afterFetch_nil he]

/-! ### Reads have no side effect (R87) -/

/-- Of all that a host transaction can do, a read can only answer. -/
theorem exec_hostRead {s t : State} {tx : BusTxn} {i : Instr} (hd : decodeTxn s.params tx = .ok i)
    (hr : tx.we = false) (h : exec i s = .next t) : ∃ r n, t = { s with rdata := r, draws := n } := by
  have hno : tx.we ≠ true := by rw [hr]; exact Bool.false_ne_true
  rcases host_cases hd h with ⟨_, -, rfl, -⟩ | ⟨_, hw, -⟩ | ⟨_, hw, -⟩ | ⟨-, hw, -⟩ | ⟨-, hw, -⟩ | ⟨-, hw, -⟩ |
    ⟨-, hw, -⟩ | ⟨-, _, _, _, -, rfl, -⟩ | ⟨hw, -⟩ | ⟨-, hread⟩ | ⟨-, hw, -⟩
  · exact absurd rfl hno
  · exact absurd hw hno
  · exact absurd hw hno
  · exact absurd hw hno
  · exact absurd hw hno
  · exact absurd hw hno
  · exact absurd hw hno
  · exact absurd rfl hno
  · exact absurd hw hno
  · exact hread
  · exact absurd hw hno

/-- Settles O19: a read turn that answers decodes, and then exec_hostRead says what it does. -/
theorem readsChangeOnlyThePort : Obligations.ReadsChangeOnlyThePort := by
  intro s t tx es he hr h
  rw [step_bus he, State.afterFetch_cons he] at h
  cases hd : decodeTxn s.params tx with
  | error e =>
    rw [hd] at h
    cases h
  | ok i =>
    rw [hd] at h
    obtain ⟨r, n, rfl⟩ := exec_hostRead (s := { s with events := es }) hd hr h
    rfl

end Sys2Proof.Machine

/-! Encoding (30_encoding.md R110 to R117; 20_memory.md R80, R81, R83, R84): which operation a command word selects, the
bits the engine ignores, and the round trips between operations and their encodings in both directions. -/

namespace Sys2Proof

/-! ### What a command word decodes to (R111 to R115) -/

theorem decodeCommand_of_op_nop {w : Word} (h : cmdOp w = 0x0) : decodeCommand w = .nop := by
  rw [decodeCommand, h]
  rfl

theorem decodeCommand_of_op_crcInit {w : Word} (h : cmdOp w = 0x1) : decodeCommand w = .crcInit := by
  rw [decodeCommand, h]
  rfl

theorem decodeCommand_of_op_crcBlock {w : Word} (h : cmdOp w = 0x2) : decodeCommand w = .crcBlock (cmdSeed w) := by
  rw [decodeCommand, h]
  rfl

theorem decodeCommand_of_op_encodeFrame {w : Word} (h : cmdOp w = 0x3) :
    decodeCommand w = .encodeFrame (cmdDesc w) := by
  rw [decodeCommand, h]
  rfl

theorem decodeCommand_of_op_decodeFrame {w : Word} (h : cmdOp w = 0x4) :
    decodeCommand w = .decodeFrame (cmdDesc w) := by
  rw [decodeCommand, h]
  rfl

/-- The operations of the opcodes 0x5 to 0xF. -/
def reservedInstrs : List Instr :=
  [.reserved5, .reserved6, .reserved7, .reserved8, .reserved9, .reservedA, .reservedB, .reservedC, .reservedD,
    .reservedE, .reservedF]

theorem decodeCommand_mem_reservedInstrs {w : Word} (h : 5 ≤ (cmdOp w).toNat) : decodeCommand w ∈ reservedInstrs := by
  unfold decodeCommand reservedInstrs
  split
  all_goals first | omega | simp only [List.mem_cons, true_or, or_true]

/-- The decoder reads a command word through OP, SEED and DESC alone. -/
theorem decodeCommand_congr {v w : Word} (ho : cmdOp v = cmdOp w) (hs : cmdSeed v = cmdSeed w)
    (hd : cmdDesc v = cmdDesc w) : decodeCommand v = decodeCommand w := by
  simp only [decodeCommand, ho, hs, hd]

/-- Settles O49: the opcode's own lemma for each of its values. -/
theorem opcodeSelectsTheOperation : Obligations.OpcodeSelectsTheOperation := by
  intro p w
  refine ⟨fun h => ?_, fun h => ?_, fun h => ?_, fun h => ?_, fun h => ?_, fun h => ?_⟩
  · exact congrArg Except.ok (decodeCommand_of_op_nop h)
  · exact congrArg Except.ok (decodeCommand_of_op_crcInit h)
  · exact congrArg Except.ok (decodeCommand_of_op_crcBlock h)
  · exact congrArg Except.ok (decodeCommand_of_op_encodeFrame h)
  · exact congrArg Except.ok (decodeCommand_of_op_decodeFrame h)
  · exact ⟨decodeCommand w, decodeCommand_mem_reservedInstrs h, rfl⟩

/-! ### The reserved bits of a command word (R114) -/

/-- A field that lies inside a mask's set bits is kept by the mask. -/
theorem extractLsb'_and_of_mask {w m : Word} {start len : Nat} (h : m.extractLsb' start len = BitVec.allOnes len) :
    (w &&& m).extractLsb' start len = w.extractLsb' start len := by
  rw [BitVec.extractLsb'_and, h, BitVec.and_allOnes]

theorem decodeCommand_and_fields (w : Word) : decodeCommand (w &&& 0x0000FF1F) = decodeCommand w := by
  have hop : cmdOp (w &&& 0x0000FF1F) = cmdOp w := extractLsb'_and_of_mask (by decide)
  have hseed : cmdSeed (w &&& 0x0000FF1F) = cmdSeed w := by simp [cmdSeed]
  have hdesc : cmdDesc (w &&& 0x0000FF1F) = cmdDesc w := extractLsb'_and_of_mask (by decide)
  exact decodeCommand_congr hop hseed hdesc

/-- Settles O48: both words decode to one operation. -/
theorem reservedCommandBitsAreIgnored : Obligations.ReservedCommandBitsAreIgnored := by
  intro s w
  simp only [Machine.runRaw, decode, decodeCommand_and_fields]

/-! ### From an operation to its encoding and back (R110, R116, R120) -/

theorem decode_regWrite {p : Params} {a : Addr} {w : Word} {i : Instr} (ha : a.toNat < 0x10000 ∧ a.toNat % 4 = 0)
    (h : decodeRegWrite p a.toNat w = some i) : decode p (regWrite a w) = .ok i := decodeTxn_write ha.1 ha.2 h

theorem decode_regRead {p : Params} {a : Addr} {i : Instr} (ha : a.toNat < 0x10000 ∧ a.toNat % 4 = 0)
    (h : decodeRegRead p a.toNat = some i) : decode p (regRead a) = .ok i := decodeTxn_read ha.1 ha.2 h

theorem decode_encode_wrCrcConfig (p : Params) (r : CrcReg) (w : Word) :
    decode p (encode (.wrCrcConfig r w)) = .ok (.wrCrcConfig r w) := by
  cases r <;> exact decode_regWrite (by decide) rfl

theorem decode_encode_wrRo (p : Params) (r : RoReg) (w : Word) : decode p (encode (.wrRo r w)) = .ok (.wrRo r w) := by
  cases r <;> exact decode_regWrite (by decide) rfl

theorem decode_encode_rdReg {p : Params} {r : ReadReg} (h : r.wf p = true) :
    decode p (encode (.rdReg r)) = .ok (.rdReg r) := by
  cases r with
  | desc d k => exact decodeTxn_desc (of_decide_eq_true h) false 0
  | _ => exact decode_regRead (by decide) rfl

theorem decode_encode_wrOperand {p : Params} {r : OperandReg} (h : r.wf p = true) (w : Word) :
    decode p (encode (.wrOperand r w)) = .ok (.wrOperand r w) := by
  cases r with
  | desc d k => exact decodeTxn_desc (of_decide_eq_true h) true w
  | _ => exact decode_regWrite (by decide) rfl

/-- Settles O45, by the operation: a command's fields come out of its word, a register's offset leads to its own row, a
descriptor's and a window's offset are invertible. The commands without an operand are closed words. -/
theorem decodeInvertsEncode : Obligations.DecodeInvertsEncode := by
  intro p i _ hwf
  cases i with
  | nop | crcInit | reserved5 | reserved6 | reserved7 | reserved8 | reserved9 | reservedA | reservedB | reservedC
  | reservedD | reservedE | reservedF => rfl
  | crcBlock seed =>
    have hop := cmdOp_commandWord 0x2 seed 0
    simp only [encode, decode, decodeCommand_of_op_crcBlock hop, cmdSeed_commandWord]
  | encodeFrame d =>
    have hop := cmdOp_commandWord 0x3 false d
    simp only [encode, decode, decodeCommand_of_op_encodeFrame hop, cmdDesc_commandWord]
  | decodeFrame d =>
    have hop := cmdOp_commandWord 0x4 false d
    simp only [encode, decode, decodeCommand_of_op_decodeFrame hop, cmdDesc_commandWord]
  | wrCrcData8 w | wrCrcData32 w | wrCrcState w | wrCmd w | wrCtrl w | wrStatus w =>
    exact decode_regWrite (by decide) rfl
  | rdCrcResult | rdCrcState => exact decode_regRead (by decide) rfl
  | wrCrcConfig r w => exact decode_encode_wrCrcConfig p r w
  | wrRo r w => exact decode_encode_wrRo p r w
  | rdReg r => exact decode_encode_rdReg hwf
  | wrOperand r w => exact decode_encode_wrOperand hwf w
  | bufWr sz o w => exact decodeTxn_window (of_decide_eq_true hwf) true w
  | bufRd sz o => exact decodeTxn_window (of_decide_eq_true hwf) false 0

/-! ### From a transaction to its operation and back (R116, R117) -/

theorem encode_of_decodeRegWrite {p : Params} {a : Addr} {w : Word} {i : Instr} (hp : p.ndesc ≤ 240)
    (ha : a.toNat % 4 = 0) (h : decodeRegWrite p a.toNat w = some i) :
    i.wf p = true ∧ encode i = regWrite a w := by
  have row : ∀ {b : Addr}, a.toNat = b.toNat → regWrite b w = regWrite a w := fun hb =>
    congrArg (regWrite · w) (BitVec.eq_of_toNat_eq hb.symm)
  rcases decodeRegWrite_cases h with ⟨hb, rfl⟩ | ⟨hb, rfl⟩ | ⟨hb, rfl⟩ | ⟨hb, rfl⟩ | ⟨hb, rfl⟩ | ⟨hb, rfl⟩ |
    ⟨hb, rfl⟩ | ⟨hb, rfl⟩ | ⟨hb, rfl⟩ | ⟨hb, rfl⟩ | ⟨hb, rfl⟩ | ⟨hb, rfl⟩ | ⟨hb, rfl⟩ | ⟨hb, rfl⟩ | ⟨r, hb, rfl⟩ |
    ⟨d, k, hd, rfl⟩
  on_goal 16 =>
    obtain ⟨hlt, hb⟩ := descAt_eq_some hp ha hd
    exact ⟨decide_eq_true hlt, row hb.symm⟩
  all_goals exact ⟨rfl, row hb⟩

theorem encode_of_decodeRegRead {p : Params} {a : Addr} {i : Instr} (hp : p.ndesc ≤ 240)
    (ha : a.toNat % 4 = 0) (h : decodeRegRead p a.toNat = some i) :
    i.wf p = true ∧ encode i = regRead a := by
  have row : ∀ {b : Addr}, a.toNat = b.toNat → regRead b = regRead a := fun hb =>
    congrArg regRead (BitVec.eq_of_toNat_eq hb.symm)
  rcases decodeRegRead_cases h with ⟨hb, rfl⟩ | ⟨hb, rfl⟩ | ⟨r, hr, hb, rfl⟩ | ⟨d, k, hd, rfl⟩
  · exact ⟨rfl, row hb⟩
  · exact ⟨rfl, row hb⟩
  · have hwf : r.wf p = true := by
      cases r with
      | desc d k => exact absurd rfl (hr d k)
      | _ => rfl
    exact ⟨hwf, row hb⟩
  · obtain ⟨hlt, hb⟩ := descAt_eq_some hp ha hd
    exact ⟨decide_eq_true hlt, row hb.symm⟩

/-- Settles O47, by the three answers of the transaction decoder: a register write, a register read, a window access. -/
theorem transactionDecodeLosesNoBit : Obligations.TransactionDecodeLosesNoBit := by
  intro p ⟨we, a, size, w⟩ i hp hd
  obtain ⟨-, -, hn⟩ := hp
  rcases decodeTxn_cases hd with ⟨-, rfl, ha, rfl, h⟩ | ⟨-, rfl, ha, rfl, h⟩ | ⟨ha, sz, hsz, hin, rfl⟩
  · exact encode_of_decodeRegWrite hn ha h
  · exact encode_of_decodeRegRead hn ha h
  · have hfield : size = sz.field := sizeOfField_eq_some.mp hsz
    have haddr : windowAddr (a.setWidth 16) = a := (setWidth_windowAddr ha).2
    cases we <;> exact ⟨decide_eq_true hin, by simp [encode, haddr, hfield]⟩

/-- Settles O50: each word and transaction decodes by evaluation. -/
theorem sampleWordsDecode : Obligations.SampleWordsDecode :=
  ⟨rfl, rfl, rfl, rfl, rfl, rfl, rfl, rfl⟩

end Sys2Proof

/-! The CRC engine (40_crc_engine.md R140 to R168): its register operations and commands as equations, the streaming and
block-wise computations of the same bytes, and the CRC function at its parameters' corner cases. -/

namespace Sys2Proof.Machine

/-! ### The register operations as equations (R155 to R165) -/

theorem exec_wrCrcData8 (w : Word) (s : State) : exec (.wrCrcData8 w) s =
    .next (s.writeUnlessBusy { s with crcState := s.crcConf.update s.crcState (byteLane w 0) }) := rfl

theorem exec_wrCrcData32 (w : Word) (s : State) : exec (.wrCrcData32 w) s =
    .next (s.writeUnlessBusy { s with crcState := s.crcConf.run s.crcState (leBytes 4 w) }) := rfl

theorem exec_wrCrcState (w : Word) (s : State) :
    exec (.wrCrcState w) s = .next (s.writeUnlessBusy { s with crcState := w }) := rfl

theorem exec_wrCrcConfig (r : CrcReg) (w : Word) (s : State) :
    exec (.wrCrcConfig r w) s = .next (s.writeUnlessBusy (s.setCrcReg r w)) := rfl

theorem exec_rdCrcState (s : State) : exec .rdCrcState s = .next (s.readCrc s.crcState) := rfl

theorem exec_rdCrcResult (s : State) : exec .rdCrcResult s = .next (s.readCrc (s.crcConf.final s.crcState)) := rfl

/-- Settles O22: an idle write and a dropped one by State.writeUnlessBusy; both branches see only byte lane 0. -/
theorem streamByteWriteFeedsTheLowByte : Obligations.StreamByteWriteFeedsTheLowByte := by
  refine ⟨?_, ?_, ?_⟩
  · intro s w hp
    rw [exec_wrCrcData8, State.writeUnlessBusy_idle hp]
    rfl
  · intro s w c hp
    rw [exec_wrCrcData8, State.writeUnlessBusy_busy hp]
    rfl
  · intro s w w' h
    have hlane : byteLane w 0 = byteLane w' 0 := h
    rw [exec_wrCrcData8, exec_wrCrcData8, hlane]

/-- Settles O23: the four byte writes run the lanes of the word in the order in which the word write does. -/
theorem streamWordWriteEqualsFourByteWrites : Obligations.StreamWordWriteEqualsFourByteWrites := by
  refine ⟨?_, ?_⟩
  · intro s w hp
    refine ⟨{ s with crcState := s.crcConf.run s.crcState (leBytes 4 w) }, ?_, rfl, State.streamBytes_idle hp _⟩
    rw [exec_wrCrcData32, State.writeUnlessBusy_idle hp]
  · intro s w c hp
    rw [exec_wrCrcData32, State.writeUnlessBusy_busy hp]
    rfl

/-- Settles O24: each write is a State.writeUnlessBusy of the register it names. -/
theorem stateLoadAndConfigWrites : Obligations.StateLoadAndConfigWrites := by
  refine ⟨?_, ?_⟩
  · intro s w hp
    have load : exec (.wrCrcState w) s = .next { s with crcState := w } := by
      rw [exec_wrCrcState, State.writeUnlessBusy_idle hp]
    have config : ∀ r, exec (.wrCrcConfig r w) s = .next (s.setCrcReg r w) := fun r => by
      rw [exec_wrCrcConfig, State.writeUnlessBusy_idle hp]
    exact ⟨load, config .poly, config .init, config .xorout, config .cfg⟩
  · intro s w c r hp
    rw [exec_wrCrcState, exec_wrCrcConfig, State.writeUnlessBusy_busy hp, State.writeUnlessBusy_busy hp]
    exact ⟨rfl, rfl⟩

/-! ### Reads of CRC_STATE and CRC_RESULT (R161, R163, R239) -/

theorem State.crcInFlight_of_pending {s : State} {w : Word} (h : s.pending = some w) :
    s.crcInFlight = (cmdOp w == 0x1 || cmdOp w == 0x2) := by
  rw [State.crcInFlight, h]

theorem exec_crcReads_plain {s : State} (h : s.crcInFlight = false) :
    exec .rdCrcState s = .next { s with rdata := s.crcState } ∧
      exec .rdCrcResult s = .next { s with rdata := s.crcConf.final s.crcState } := by
  rw [exec_rdCrcState, exec_rdCrcResult, State.readCrc_plain h, State.readCrc_plain h]
  exact ⟨rfl, rfl⟩

/-- Settles O16: whether the read is free is decided by the opcode in flight. -/
theorem crcReadReturnsStateOrAFreeValue : Obligations.CrcReadReturnsStateOrAFreeValue := by
  refine ⟨?_, ?_⟩
  · rintro s (hp | ⟨w, hp, h1, h2⟩)
    · exact exec_crcReads_plain (State.crcInFlight_of_idle hp)
    · have hop : s.crcInFlight = false := by
        rw [State.crcInFlight_of_pending hp, Bool.or_eq_false_iff, beq_eq_false_iff_ne, beq_eq_false_iff_ne]
        exact ⟨h1, h2⟩
      exact exec_crcReads_plain hop
  · intro s w hp h
    have hop : s.crcInFlight = true := by
      rw [State.crcInFlight_of_pending hp, Bool.or_eq_true, beq_iff_eq, beq_iff_eq]
      exact h
    rw [exec_rdCrcState, exec_rdCrcResult, State.readCrc_free hop, State.readCrc_free hop]
    exact ⟨rfl, rfl⟩

/-! ### CRC_INIT and CRC_BLOCK (R150, R152) -/

/-- OK keeps ERR (R233). -/
theorem Status.completed_ok (st : Status) : st.completed .ok = { st with done := true, result := .ok } := by
  simp [Status.completed]

theorem Status.completed_of_ne_ok (st : Status) {code : ResultCode} (h : code ≠ .ok) :
    st.completed code = { st with done := true, err := true, result := code } := by
  simp [Status.completed, h]

theorem exec_crcInit (s : State) : exec .crcInit s = .next ({ s with crcState := s.crcInit }.complete .ok) := rfl

/-- Settles O11: the completion with OK, and the read of CRC_RESULT that finds what reset leaves in CRC_STATE. -/
theorem crcInitLoadsTheInitialValue : Obligations.CrcInitLoadsTheInitialValue := by
  refine ⟨?_, fun w h => decodeCommand_of_op_crcInit h, ?_⟩
  · intro s
    rw [exec_crcInit, State.complete, Status.completed_ok]
  · exact ⟨_, _, exec_crcInit _, (exec_crcReads_plain rfl).2, State.reset_crcResult⟩

/-- CRC_BLOCK over a range inside the buffer whose bytes are `bs` (R152). -/
theorem exec_crcBlock_of_bytes {s : State} {bs : List Byte} (seed : Bool)
    (hr : s.blkStart.toNat + s.blkLen.toNat ≤ s.params.bufBytes)
    (hb : s.buf.readBytes s.blkStart.toNat s.blkLen.toNat = .ok bs) :
    exec (.crcBlock seed) s =
      .next ({ s with crcState := s.crcConf.run (if seed then s.crcInit else s.crcState) bs }.complete .ok) := by
  rw [exec, execCrcBlock_of_range seed hr, hb]

/-- Settles O25: the range check first, then the bytes that Memory.readBytes finds or the lowest unwritten offset. -/
theorem crcBlockProcessesTheRange : Obligations.CrcBlockProcessesTheRange := by
  refine ⟨?_, ?_, ?_, fun w h => decodeCommand_of_op_crcBlock h⟩
  · intro s seed hr hw
    obtain ⟨bs, hb, hlen, hbytes⟩ := Memory.readBytes_of_written _ _ _ hw
    refine ⟨bs, hlen, hbytes, ?_⟩
    rw [exec_crcBlock_of_bytes seed hr hb, State.complete, Status.completed_ok]
  · intro s seed hr
    rw [exec, execCrcBlock_of_rangeError seed hr, State.complete, Status.completed_of_ne_ok _ (by decide)]
  · intro s seed k hr hk hn hw
    have hb : s.buf.readBytes s.blkStart.toNat s.blkLen.toNat = .error (s.blkStart.toNat + k) :=
      (Memory.readBytes_eq_error _ _ _ _).mpr ⟨k, hk, rfl, hn, hw⟩
    rw [exec, execCrcBlock_of_range seed hr, hb]

/-- Settles O26: both sides are CrcConf.run of the same bytes, and runs compose. -/
theorem blockAgreesWithByteStream : Obligations.BlockAgreesWithByteStream := by
  refine ⟨?_, ?_⟩
  · intro s bs hp hr hlen hbytes
    have hb := (Memory.readBytes_eq_ok s.buf _ _ bs).mpr ⟨hlen, hbytes⟩
    exact ⟨_, _, State.streamBytes_idle hp bs, exec_crcBlock_of_bytes false hr hb, rfl, rfl⟩
  · intro s p q t u v hp ht hu hv
    rw [State.streamBytes_idle hp] at ht hv
    injection ht with ht
    injection hv with hv
    subst ht hv
    rw [State.streamBytes_idle (s := { s with crcState := s.crcConf.run s.crcState p }) hp] at hu
    injection hu with hu
    rw [← hu, CrcConf.run_append]
    rfl

/-! ### The CRC function's example values (R141 to R145) -/

/-- Settles O27: no byte enters the register; at reset that leaves State.reset_crcResult. -/
theorem emptyRangeCrcIsFinalOfInit : Obligations.EmptyRangeCrcIsFinalOfInit :=
  ⟨fun _ => rfl, State.reset_crcResult⟩

/-- Settles O21: closed values, by evaluation of the model's CRC function. -/
theorem crcPrimitivesMatchTheExamples : Obligations.CrcPrimitivesMatchTheExamples := by
  unfold Obligations.CrcPrimitivesMatchTheExamples
  decide +kernel

/-! ### POLY = 0 and the zero sequence (R167) -/

section PolyZero

variable {c : CrcConf} (hc : c.poly = 0)
include hc

/-- R167 (a): the byte is shifted out before it can affect the register. -/
theorem CrcConf.update_poly_zero (r : Word) (b : Byte) : c.update r b = r <<< 8 := by
  rw [CrcConf.update_eq, hc, crcShifts_poly_zero, crcShifts_poly_zero, ← BitVec.shiftLeft_add,
    BitVec.shiftLeft_eq_zero (Nat.le_refl 32), BitVec.xor_zero]

theorem CrcConf.run_poly_zero (r : Word) (bs : List Byte) : c.run r bs = r <<< (8 * bs.length) := by
  induction bs generalizing r with
  | nil => simp
  | cons b bs ih =>
    rw [CrcConf.run_cons, CrcConf.update_poly_zero hc, ih, ← BitVec.shiftLeft_add, List.length_cons]
    congr 1
    omega

theorem CrcConf.crc_poly_zero (bs : List Byte) : c.crc bs = c.final (c.init <<< (8 * bs.length)) := by
  rw [CrcConf.crc, CrcConf.run_poly_zero hc]

theorem CrcConf.crc_poly_zero_of_four_le {bs : List Byte} (h : 4 ≤ bs.length) : c.crc bs = c.final 0 := by
  rw [CrcConf.crc_poly_zero hc, BitVec.shiftLeft_eq_zero (by omega)]
  rfl

end PolyZero

theorem reflect_zero (n : Nat) : reflect (0 : BitVec n) = 0 := by
  ext i hi
  simp [reflect, BitVec.getElem_reverse]

theorem CrcConf.inByte_zero (c : CrcConf) : c.inByte 0 = 0 := by
  rw [CrcConf.inByte, reflect_zero, ite_self]

theorem CrcConf.update_zero (c : CrcConf) : c.update 0 0 = 0 := by
  rw [CrcConf.update, CrcConf.inByte_zero]
  exact crcShifts_of_zero c.poly 8

theorem CrcConf.run_zeros (c : CrcConf) (n : Nat) : c.run 0 (List.replicate n 0) = 0 := by
  induction n with
  | zero => rfl
  | succ n ih => rw [List.replicate_succ, CrcConf.run_cons, CrcConf.update_zero, ih]

theorem CrcConf.final_zero {c : CrcConf} (h : c.xorout = 0) : c.final 0 = 0 := by
  rw [CrcConf.final, reflect_zero, ite_self, h]
  exact BitVec.xor_self

/-- Settles O28: with POLY = 0 the register is only shifted, and from 0 zero bytes leave it 0; the example values are
evaluated. -/
theorem cornerCasesOfTheParameters : Obligations.CornerCasesOfTheParameters := by
  refine ⟨fun c r b hc => CrcConf.update_poly_zero hc r b, ?_,
    fun c bs hc h => CrcConf.crc_poly_zero_of_four_le hc h, by decide +kernel, by decide +kernel, by decide +kernel,
    by decide +kernel, by decide +kernel, ?_⟩
  · intro c r bs hc
    rw [CrcConf.run_poly_zero hc, BitVec.toNat_shiftLeft, Nat.shiftLeft_eq]
  · intro c n hi hx
    rw [CrcConf.crc, hi, CrcConf.run_zeros, CrcConf.final_zero hx]

/-! ### One flipped bit (R168) -/

theorem reflect_xor {n : Nat} (a b : BitVec n) : reflect (a ^^^ b) = reflect a ^^^ reflect b := by
  ext i hi
  simp [reflect, BitVec.getElem_reverse]

theorem reflect_byteBit {k : Nat} (h : k < 8) : reflect (1#8 <<< k) = 1#8 <<< (7 - k) := by
  revert k
  decide

/-- A bit flipped in the byte is one bit flipped in what enters the register, whatever REFIN is. -/
theorem CrcConf.inByte_xor_bit (c : CrcConf) (b : Byte) {k : Nat} (h : k < 8) :
    ∃ j < 8, c.inByte (b ^^^ (1#8 <<< k)) = c.inByte b ^^^ (1#8 <<< j) := by
  unfold CrcConf.inByte
  cases c.refin with
  | true => exact ⟨7 - k, by omega, by rw [if_pos rfl, if_pos rfl, reflect_xor, reflect_byteBit h]⟩
  | false => exact ⟨k, h, rfl⟩

theorem setWidth_byteBit_shiftLeft {j : Nat} (h : j < 8) : (1#8 <<< j).setWidth 32 <<< 24 = 1#32 <<< (24 + j) := by
  revert j
  decide

/-- A bit flipped in the byte is one bit flipped in the register before it. -/
theorem CrcConf.update_xor_bit (c : CrcConf) (r : Word) (b : Byte) {k : Nat} (h : k < 8) :
    ∃ j < 32, c.update r (b ^^^ (1#8 <<< k)) = c.update (r ^^^ (1#32 <<< j)) b := by
  obtain ⟨j, hj, hin⟩ := c.inByte_xor_bit b h
  refine ⟨24 + j, by omega, ?_⟩
  rw [CrcConf.update, CrcConf.update, hin, BitVec.setWidth_xor, BitVec.shiftLeft_xor_distrib,
    setWidth_byteBit_shiftLeft hj, BitVec.xor_assoc, BitVec.xor_comm (1#32 <<< (24 + j))]

/-- The registers after a sequence and after the sequence with one bit flipped differ by shifts of a single bit: the
bytes before the flipped one give one register, and from there the two runs start one bit apart. -/
theorem CrcConf.run_flipBit_xor (c : CrcConf) (r : Word) {bs : List Byte} {i k : Nat} (hi : i < bs.length)
    (hk : k < 8) : ∃ j < 32, ∃ m, c.run r (flipBit bs i k) ^^^ c.run r bs = crcShifts c.poly m (1#32 <<< j) := by
  induction bs generalizing r i with
  | nil => cases hi
  | cons b bs ih =>
    cases i with
    | zero =>
      obtain ⟨j, hj, hupdate⟩ := c.update_xor_bit r b hk
      have hrun : c.run r (flipBit (b :: bs) 0 k) = c.run (r ^^^ (1#32 <<< j)) (b :: bs) := by
        rw [flipBit, List.modify_zero_cons, CrcConf.run_cons, hupdate, CrcConf.run_cons]
      have hbit : r ^^^ (1#32 <<< j) ^^^ r = 1#32 <<< j := by
        rw [BitVec.xor_comm r, BitVec.xor_assoc, BitVec.xor_self, BitVec.xor_zero]
      exact ⟨j, hj, 8 * (b :: bs).length, by rw [hrun, CrcConf.run_xor, hbit]⟩
    | succ i => exact ih (c.update r b) (Nat.lt_of_succ_lt_succ hi)

/-- With POLY nonzero the single bit never shifts out, so the two registers differ, and `final` keeps them apart. -/
theorem CrcConf.crc_flipBit_ne {c : CrcConf} (hc : c.poly ≠ 0) {bs : List Byte} {i k : Nat} (hi : i < bs.length)
    (hk : k < 8) : c.crc (flipBit bs i k) ≠ c.crc bs := by
  intro h
  obtain ⟨j, hj, m, hdiff⟩ := c.run_flipBit_xor c.init hi hk
  rw [c.final_injective h, BitVec.xor_self] at hdiff
  exact crcShifts_bit_ne_zero hc hj m hdiff.symm

@[simp] theorem flipBit_length (bs : List Byte) (i k : Nat) : (flipBit bs i k).length = bs.length :=
  List.length_modify ..

/-- With POLY = 0 the CRC depends on the length alone, which a flip keeps. -/
theorem CrcConf.crc_flipBit_poly_zero {c : CrcConf} (hc : c.poly = 0) (bs : List Byte) (i k : Nat) :
    c.crc (flipBit bs i k) = c.crc bs := by
  rw [CrcConf.crc_poly_zero hc, CrcConf.crc_poly_zero hc, flipBit_length]

/-- Settles O29: with POLY = 0 the flip in a zero sequence goes unseen; otherwise CrcConf.crc_flipBit_ne. -/
theorem oneBitFlipChangesTheCrcIffPolyNonzero : Obligations.OneBitFlipChangesTheCrcIffPolyNonzero := by
  intro c n hn
  constructor
  · intro h hc
    exact h (List.replicate n 0) 0 0 List.length_replicate hn (by decide) (CrcConf.crc_flipBit_poly_zero hc _ 0 0)
  · intro hc bs i k hlen hi hk
    exact CrcConf.crc_flipBit_ne hc (by rwa [hlen]) hk

end Sys2Proof.Machine

/-! The frame codec (41_frame_codec.md R182 to R205): placement and extraction of the checksum, what a refused command
leaves, a frame as the bytes that stand in the buffer, and what ENCODE, DECODE and a changed byte do to that frame. -/

namespace Sys2Proof.Machine

/-! ### Placement and extraction (R185, R186) -/

/-- Neighbouring lanes join, so the four lanes, highest first, are the word (R85). -/
theorem byteLanes_append (c : Word) : byteLane c 3 ++ byteLane c 2 ++ byteLane c 1 ++ byteLane c 0 = c := by
  have join (start len : Nat) : c.extractLsb' (start + 8) len ++ c.extractLsb' start 8 = c.extractLsb' start (len + 8) :=
    BitVec.extractLsb'_append_extractLsb'_eq_extractLsb' rfl
  calc
    byteLane c 3 ++ byteLane c 2 ++ byteLane c 1 ++ byteLane c 0 =
        c.extractLsb' 16 16 ++ byteLane c 1 ++ byteLane c 0 := congrArg (· ++ byteLane c 1 ++ byteLane c 0) (join 16 8)
    _ = c.extractLsb' 8 24 ++ byteLane c 0 := congrArg (· ++ byteLane c 0) (join 8 16)
    _ = c.extractLsb' 0 32 := join 0 24
    _ = c := BitVec.extractLsb'_eq_self

theorem byteLane_append (b3 b2 b1 b0 : Byte) :
    byteLane (b3 ++ b2 ++ b1 ++ b0) 0 = b0 ∧ byteLane (b3 ++ b2 ++ b1 ++ b0) 1 = b1 ∧
      byteLane (b3 ++ b2 ++ b1 ++ b0) 2 = b2 ∧ byteLane (b3 ++ b2 ++ b1 ++ b0) 3 = b3 := by
  simp only [byteLane, BitVec.extractLsb'_append_eq_ite]
  simp

theorem extract_of_place {c : Word} {o : Bool} {b0 b1 b2 b3 : Byte} (h : place c o = [b0, b1, b2, b3]) :
    extract b0 b1 b2 b3 o = c := by
  cases o <;>
  · simp only [place, Bool.false_eq_true, if_false, if_true, List.cons.injEq, and_true] at h
    obtain ⟨rfl, rfl, rfl, rfl⟩ := h
    exact byteLanes_append c

theorem place_extract (o : Bool) (b0 b1 b2 b3 : Byte) : place (extract b0 b1 b2 b3 o) o = [b0, b1, b2, b3] := by
  cases o with
  | false =>
    obtain ⟨h0, h1, h2, h3⟩ := byteLane_append b3 b2 b1 b0
    simp only [place, extract, Bool.false_eq_true, if_false, h0, h1, h2, h3]
  | true =>
    obtain ⟨h0, h1, h2, h3⟩ := byteLane_append b0 b1 b2 b3
    simp only [place, extract, if_true, h0, h1, h2, h3]

/-- Settles O39: the equations of the two orders, extract_of_place and place_extract. -/
theorem extractInvertsPlace : Obligations.ExtractInvertsPlace :=
  ⟨fun _ _ _ _ => ⟨rfl, rfl⟩, fun _ _ _ _ _ _ h => extract_of_place h, place_extract, place_length⟩

/-- R185, by the frame offset: the lanes rise with the offset, or fall in the reversed order. -/
theorem place_getElem? (c : Word) (o : Bool) {k : Nat} (hk : k < 4) :
    (place c o)[k]? = some (if o then byteLane c (3 - k) else byteLane c k) := by
  cases o <;> interval_cases k <;> rfl

/-! ### A refused command (R188, R190, R200) -/

theorem State.codecCheck_ne_ok {s : State} {d : BitVec 8} (h : ¬ s.precheckPasses d) : s.codecCheck d ≠ .ok :=
  fun hok => h ((s.codecCheck_eq_ok d).mp hok)

theorem exec_encodeFrame_of_codecCheck {s : State} {d : BitVec 8} {code : ResultCode} (h : s.codecCheck d = code)
    (hc : code ≠ .ok) :
    exec (.encodeFrame d) s = .next { s with
      status := { s.status with done := true, err := true, result := code }, pending := none } := by
  subst h
  rw [exec, execEncodeFrame_of_fail hc, State.complete, Status.completed_of_ne_ok _ hc]

theorem exec_decodeFrame_of_codecCheck {s : State} {d : BitVec 8} {code : ResultCode} (h : s.codecCheck d = code)
    (hc : code ≠ .ok) :
    exec (.decodeFrame d) s = .next { s with
      rxFlag := 0
      rxLen := 0
      rxType := 0
      rxCrc := 0
      calcCrc := 0
      status := { s.status with done := true, err := true, flagOk := false, typeOk := false, result := code }
      pending := none } := by
  subst h
  rw [exec, execDecodeFrame_of_fail hc, State.decodeReject, State.complete, Status.completed_of_ne_ok _ hc]

/-- Settles O31: each failure's code by the precheck's laws. -/
theorem encodePrecheckReportsTheFirstFailure : Obligations.EncodePrecheckReportsTheFirstFailure := by
  intro s d
  refine ⟨fun h => ?_, fun hd hm => ?_, fun hd hm hb => ?_⟩
  · exact exec_encodeFrame_of_codecCheck (State.codecCheck_descError ((s.not_descriptorOk_iff d).mpr h)) (by decide)
  · exact exec_encodeFrame_of_codecCheck (State.codecCheck_bufferTooSmall hd hm) (by decide)
  · exact exec_encodeFrame_of_codecCheck (State.codecCheck_rangeError hd hm hb) (by decide)

/-- Settles O32: the code is the precheck's; a failure that is neither of the first two is the third. -/
theorem decodeRejectClearsTheResultRegisters : Obligations.DecodeRejectClearsTheResultRegisters := by
  intro s d h
  refine ⟨s.codecCheck d, exec_decodeFrame_of_codecCheck rfl (State.codecCheck_ne_ok h), ?_, ?_, fun hd hm => ?_⟩
  · exact State.codecCheck_descError
  · exact State.codecCheck_bufferTooSmall
  · exact State.codecCheck_rangeError hd hm (not_le.mp fun hb => h ⟨hd, hm, hb⟩)

/-- Settles O35: with MAX_SIZE below N both commands are refused with the same code. -/
theorem sizeGuardRefusesAndWritesNothing : Obligations.SizeGuardRefusesAndWritesNothing := by
  intro s d m hd _ hm
  have hcode : State.codecCheck { s with maxSize := m } d = .bufferTooSmall := State.codecCheck_bufferTooSmall hd hm
  exact ⟨_, _, exec_encodeFrame_of_codecCheck hcode (by decide), rfl, rfl,
    exec_decodeFrame_of_codecCheck hcode (by decide), rfl, rfl, rfl⟩

/-! ### Bytes that stand in the buffer -/

/-- The bytes `bs` stand in the buffer from offset `a` up. -/
def Memory.Holds (m : Memory) (a : Nat) (bs : List Byte) : Prop := ∀ k < bs.length, m.read? (a + k) = bs[k]?

theorem Memory.readBytes_eq_ok_iff_holds (m : Memory) (n a : Nat) (bs : List Byte) :
    m.readBytes a n = .ok bs ↔ bs.length = n ∧ m.Holds a bs := by
  rw [Memory.readBytes_eq_ok]
  constructor <;> (rintro ⟨rfl, h⟩; exact ⟨rfl, h⟩)

theorem Memory.readFour_eq_ok_iff_holds (m : Memory) (a : Nat) (b0 b1 b2 b3 : Byte) :
    m.readFour a = .ok (b0, b1, b2, b3) ↔ m.Holds a [b0, b1, b2, b3] := by
  rw [Memory.readFour_eq_ok]
  constructor
  · rintro ⟨h0, h1, h2, h3⟩ k hk
    replace hk : k < 4 := hk
    interval_cases k
    · exact h0
    · exact h1
    · exact h2
    · exact h3
  · intro h
    exact ⟨h 0 (by simp), h 1 (by simp), h 2 (by simp), h 3 (by simp)⟩

theorem Memory.Holds.congr {m m' : Memory} {a : Nat} {bs : List Byte} (h : m.Holds a bs)
    (heq : ∀ k < bs.length, m'.read? (a + k) = m.read? (a + k)) : m'.Holds a bs :=
  fun k hk => (heq k hk).trans (h k hk)

theorem Memory.holds_writeBytes (m : Memory) (a : Nat) (bs : List Byte) : (m.writeBytes a bs).Holds a bs :=
  fun _ hk => Memory.read?_writeBytes_inside bs m a hk

theorem Memory.Holds.writeBytes_outside {m : Memory} {a o : Nat} {bs vs : List Byte} (h : m.Holds a bs)
    (ho : a + bs.length ≤ o ∨ o + vs.length ≤ a) : (m.writeBytes o vs).Holds a bs :=
  h.congr fun _ _ => Memory.read?_writeBytes_outside vs m (by omega)

/-- What stands at offset `a` once the byte at offset `o` is `v`, where `bs` stood before. -/
def patch (a o : Nat) (v : Byte) (bs : List Byte) : List Byte := if a ≤ o then bs.set (o - a) v else bs

@[simp] theorem patch_length (a o : Nat) (v : Byte) (bs : List Byte) : (patch a o v bs).length = bs.length := by
  unfold patch
  split
  · exact List.length_set
  · rfl

theorem patch_inside (a i : Nat) (v : Byte) (bs : List Byte) : patch a (a + i) v bs = bs.set i v := by
  rw [patch, if_pos (Nat.le_add_right a i), Nat.add_sub_cancel_left]

theorem patch_outside {a o : Nat} {bs : List Byte} (v : Byte) (h : o < a ∨ a + bs.length ≤ o) :
    patch a o v bs = bs := by
  unfold patch
  split
  · exact List.set_eq_of_length_le (by omega)
  · rfl

theorem patch_getElem?_of_ne {a o k : Nat} (v : Byte) (bs : List Byte) (h : a + k ≠ o) :
    (patch a o v bs)[k]? = bs[k]? := by
  unfold patch
  split
  · exact List.getElem?_set_ne (by omega)
  · rfl

theorem Memory.Holds.write {m : Memory} {a : Nat} {bs : List Byte} (h : m.Holds a bs) (o : Nat) (v : Byte) :
    (m.write o v).Holds a (patch a o v bs) := by
  intro k hk
  rw [patch_length] at hk
  by_cases ho : a + k = o
  · subst ho
    rw [Memory.read?_write_same, patch_inside, List.getElem?_set_self hk]
  · rw [Memory.read?_write_other m v ho, patch_getElem?_of_ne v bs ho, h k hk]

/-- A flip writes the flipped byte over the byte that stands there (R168). -/
theorem flipBit_eq_set {bs : List Byte} {i : Nat} {b : Byte} (h : bs[i]? = some b) (k : Nat) :
    flipBit bs i k = bs.set i (b ^^^ (1#8 <<< k)) := by
  rw [flipBit, List.modify_eq_set, h, Option.getD_some]

theorem xor_byteBit_ne (b : Byte) {k : Nat} (h : k < 8) : b ^^^ (1#8 <<< k) ≠ b := by
  intro heq
  have hzero : (1#8 <<< k) = 0#8 := (BitVec.xor_right_inj b).mp (heq.trans BitVec.xor_zero.symm)
  revert hzero
  interval_cases k <;> decide

/-! ### The frame that stands in the buffer (R180, R187) -/

/-- Where a frame that passes the precheck lies: header and range in front of the checksum, its four bytes last. -/
theorem State.precheckPasses.layout {s : State} {d : BitVec 8} (h : s.precheckPasses d) :
    s.base + 4 ≤ s.checksumAt d ∧ s.base + (s.desc d).S + (s.desc d).C ≤ s.checksumAt d ∧
      s.checksumAt d + 4 = s.base + (s.desc d).N := by
  obtain ⟨h8, hsc, -⟩ := h.bounds
  simp only [State.checksumAt, State.base, Desc.N, Desc.S, Desc.C] at h8 hsc ⊢
  omega

/-- The header, the checksummed range and the checksum bytes of descriptor `d`'s frame, as they stand in the buffer. The
range may lie over the header; it lies in front of the checksum. -/
structure State.HoldsFrame (s : State) (d : BitVec 8) (hdr range sums : List Byte) : Prop where
  hdr_length : hdr.length = 4
  range_length : range.length = (s.desc d).C
  sums_length : sums.length = 4
  hdr : s.buf.Holds s.base hdr
  range : s.buf.Holds (s.base + (s.desc d).S) range
  sums : s.buf.Holds (s.checksumAt d) sums

/-- The header bytes of a parsed frame. -/
def ParsedFrame.header (f : ParsedFrame) : List Byte := [f.flag, f.lenHi, f.lenLo, f.type]

/-- The checksum bytes of a parsed frame. -/
def ParsedFrame.sums (f : ParsedFrame) : List Byte := [f.sum0, f.sum1, f.sum2, f.sum3]

/-- The checksum that a parsed frame carries (R186). -/
def ParsedFrame.checksum (f : ParsedFrame) (order : Bool) : Word := extract f.sum0 f.sum1 f.sum2 f.sum3 order

theorem ParsedFrame.place_checksum (f : ParsedFrame) (o : Bool) : place (f.checksum o) o = f.sums :=
  place_extract o f.sum0 f.sum1 f.sum2 f.sum3

/-- The checksum is the word whose placement the checksum bytes are. -/
theorem ParsedFrame.checksum_eq_iff (f : ParsedFrame) (o : Bool) (c : Word) : f.checksum o = c ↔ f.sums = place c o := by
  constructor
  · rintro rfl
    exact (f.place_checksum o).symm
  · intro h
    exact extract_of_place h.symm

theorem ParsedFrame.checksum_inj {f g : ParsedFrame} {o : Bool} : g.checksum o = f.checksum o ↔ g.sums = f.sums := by
  rw [ParsedFrame.checksum_eq_iff, ParsedFrame.place_checksum]

theorem State.parseFrame_eq_ok_iff_holdsFrame (s : State) (d : BitVec 8) (f : ParsedFrame) :
    s.parseFrame d = .ok f ↔ s.HoldsFrame d f.header f.range f.sums := by
  rw [State.parseFrame_eq_ok, Memory.readFour_eq_ok_iff_holds, Memory.readFour_eq_ok_iff_holds, State.rangeBytes,
    Memory.readBytes_eq_ok_iff_holds]
  constructor
  · rintro ⟨hh, ⟨hl, hr⟩, hs⟩
    exact ⟨rfl, hl, rfl, hh, hr, hs⟩
  · intro h
    exact ⟨h.hdr, ⟨h.range_length, h.range⟩, h.sums⟩

/-- A frame that stands in the buffer is parsed, part by part. -/
theorem State.HoldsFrame.parse {s : State} {d : BitVec 8} {hdr range sums : List Byte}
    (h : s.HoldsFrame d hdr range sums) :
    ∃ f, s.parseFrame d = .ok f ∧ f.header = hdr ∧ f.range = range ∧ f.sums = sums := by
  obtain ⟨b0, b1, b2, b3, rfl⟩ := List.length_eq_four.mp h.hdr_length
  obtain ⟨c0, c1, c2, c3, rfl⟩ := List.length_eq_four.mp h.sums_length
  exact ⟨⟨b0, b1, b2, b3, range, c0, c1, c2, c3⟩, (s.parseFrame_eq_ok_iff_holdsFrame d _).mpr h, rfl, rfl, rfl⟩

/-- The frame depends on its own bytes, FRAME_BASE and the descriptor alone. -/
theorem State.HoldsFrame.congr {s t : State} {d : BitVec 8} {hdr range sums : List Byte}
    (h : s.HoldsFrame d hdr range sums) (hp : s.precheckPasses d) (hd : t.desc d = s.desc d)
    (hb : t.frameBase = s.frameBase)
    (heq : ∀ j < (s.desc d).N, t.buf.read? (s.base + j) = s.buf.read? (s.base + j)) :
    t.HoldsFrame d hdr range sums := by
  obtain ⟨hhead, hrange, hend⟩ := hp.layout
  have hbase : t.base = s.base := congrArg BitVec.toNat hb
  have hsum : t.checksumAt d = s.checksumAt d := by rw [State.checksumAt, hb, hd, State.checksumAt]
  have hat : ∀ a bs, s.base ≤ a → a + bs.length ≤ s.base + (s.desc d).N →
      s.buf.Holds a bs → t.buf.Holds a bs := by
    intro a bs ha hlen hm
    refine hm.congr fun k hk => ?_
    rw [show a + k = s.base + (a - s.base + k) by omega]
    exact heq _ (by omega)
  obtain ⟨hhl, hrl, hsl, hh, hr, hs⟩ := h
  refine ⟨hhl, by rw [hd, hrl], hsl, ?_, ?_, ?_⟩
  · rw [hbase]
    exact hat _ _ (by omega) (by omega) hh
  · rw [hbase, hd]
    exact hat _ _ (by omega) (by omega) hr
  · rw [hsum]
    exact hat _ _ (by omega) (by omega) hs

/-- One changed byte of the buffer changes each part of the frame that it falls in. -/
theorem State.parseFrame_write {s : State} {d : BitVec 8} {f : ParsedFrame} (h : s.parseFrame d = .ok f) (o : Nat)
    (v : Byte) :
    ∃ g, State.parseFrame { s with buf := s.buf.write o v } d = .ok g ∧ g.header = patch s.base o v f.header ∧
      g.range = patch (s.base + (s.desc d).S) o v f.range ∧ g.sums = patch (s.checksumAt d) o v f.sums := by
  obtain ⟨hhl, hrl, hsl, hh, hr, hs⟩ := (s.parseFrame_eq_ok_iff_holdsFrame d f).mp h
  exact State.HoldsFrame.parse (s := { s with buf := s.buf.write o v }) ⟨(patch_length ..).trans hhl,
    (patch_length ..).trans hrl, (patch_length ..).trans hsl, hh.write o v, hr.write o v, hs.write o v⟩

/-! ### ENCODE (R190) -/

/-- Everything a completed ENCODE can be. -/
theorem encodeFrame_cases {s t : State} {d : BitVec 8} (h : exec (.encodeFrame d) s = .next t) :
    (¬ s.precheckPasses d ∧ t = s.complete (s.codecCheck d)) ∨
      (s.precheckPasses d ∧
        ∃ bs, s.rangeBytes (s.buf.writeBytes s.frameBase.toNat (hdrBytes (s.desc d))) d = .ok bs ∧
          t = s.encoded (s.buf.writeBytes s.frameBase.toNat (hdrBytes (s.desc d))) d (s.crcConf.crc bs)) := by
  rw [exec] at h
  by_cases hp : s.precheckPasses d
  · rw [execEncodeFrame_of_ok ((s.codecCheck_eq_ok d).mpr hp)] at h
    split at h
    · cases h
    · rename_i bs hbs
      injection h with h
      exact .inr ⟨hp, bs, hbs, h.symm⟩
  · rw [execEncodeFrame_of_fail (State.codecCheck_ne_ok hp)] at h
    injection h with h
    exact .inl ⟨hp, h.symm⟩

/-- After an ENCODE the header, the range that was read and the placed checksum stand in the buffer. -/
theorem State.encoded_holdsFrame {s : State} {d : BitVec 8} {bs : List Byte} (hp : s.precheckPasses d)
    (hbs : s.rangeBytes (s.buf.writeBytes s.frameBase.toNat (hdrBytes (s.desc d))) d = .ok bs) (c : Word) :
    (s.encoded (s.buf.writeBytes s.frameBase.toNat (hdrBytes (s.desc d))) d c).HoldsFrame d (hdrBytes (s.desc d)) bs
      (place c (s.desc d).order) := by
  obtain ⟨hhead, hfront, -⟩ := hp.layout
  obtain ⟨hlen, hrange⟩ := (Memory.readBytes_eq_ok_iff_holds _ _ _ _).mp hbs
  refine ⟨rfl, hlen, place_length _ _, ?_, ?_, Memory.holds_writeBytes _ _ _⟩
  · exact (Memory.holds_writeBytes _ _ _).writeBytes_outside (.inl (by rw [hdrBytes_length]; omega))
  · exact hrange.writeBytes_outside (.inl (by rw [hlen]; omega))

theorem State.encoded_eq (s : State) (m : Memory) (d : BitVec 8) (c : Word) :
    s.encoded m d c = { s with
      buf := (s.encoded m d c).buf
      calcCrc := c
      status := { s.status with done := true, result := .ok }
      pending := none } := by
  rw [← Status.completed_ok]
  rfl

/-- Settles O30: the frame that stands in the buffer after the ENCODE, byte by byte, and State.encoded_eq. -/
theorem encodeBuildsHeaderAndChecksum : Obligations.EncodeBuildsHeaderAndChecksum := by
  intro s d hp hw
  obtain ⟨bs, hbs, hexec⟩ := execEncodeFrame_of_written hp hw
  obtain ⟨-, hlen, -, hhdr, hrange, hsums⟩ := State.encoded_holdsFrame hp hbs (s.crcConf.crc bs)
  refine ⟨_, bs, hexec, hlen, fun k hk => hrange k (hlen ▸ hk), State.encoded_eq _ _ _ _, hhdr 0 (by simp),
    hhdr 1 (by simp), hhdr 2 (by simp), hhdr 3 (by simp), fun k hk => ?_,
    fun o ho => State.read?_encoded_of_not_encodeWrites hp ho _⟩
  exact (hsums k (by rwa [place_length])).trans (place_getElem? _ _ hk)

/-! ### DECODE (R195, R201) -/

/-- Everything a completed DECODE can be. -/
theorem decodeFrame_cases {s t : State} {d : BitVec 8} (h : exec (.decodeFrame d) s = .next t) :
    (¬ s.precheckPasses d ∧ t = s.decodeReject (s.codecCheck d)) ∨
      (s.precheckPasses d ∧ ∃ f, s.parseFrame d = .ok f ∧ t = s.decoded d f) := by
  rw [exec] at h
  by_cases hp : s.precheckPasses d
  · rw [execDecodeFrame_of_ok ((s.codecCheck_eq_ok d).mpr hp)] at h
    split at h
    · cases h
    · rename_i f hf
      injection h with h
      exact .inr ⟨hp, f, hf, h.symm⟩
  · rw [execDecodeFrame_of_fail (State.codecCheck_ne_ok hp)] at h
    injection h with h
    exact .inl ⟨hp, h.symm⟩

theorem exec_decodeFrame_of_parse {s : State} {d : BitVec 8} {f : ParsedFrame} (hp : s.precheckPasses d)
    (hf : s.parseFrame d = .ok f) : exec (.decodeFrame d) s = .next (s.decoded d f) := by
  rw [exec, execDecodeFrame_of_ok ((s.codecCheck_eq_ok d).mpr hp), hf]

/-- R187, R195: the CRC of the frame's range is the checksum it carries. -/
abbrev State.checksumMatches (s : State) (d : BitVec 8) (f : ParsedFrame) : Prop :=
  s.crcConf.crc f.range = f.checksum (s.desc d).order

theorem State.decoded_of_checksumMatches {s : State} {d : BitVec 8} {f : ParsedFrame} (h : s.checksumMatches d f) :
    (s.decoded d f).rxFlag = f.flag ∧ (s.decoded d f).status.result = .ok :=
  ⟨if_pos h, if_pos h⟩

theorem State.decoded_of_not_checksumMatches {s : State} {d : BitVec 8} {f : ParsedFrame} (h : ¬ s.checksumMatches d f) :
    (s.decoded d f).rxFlag = 0 ∧ (s.decoded d f).status.result = .checksumMismatch :=
  ⟨if_neg h, if_neg h⟩

theorem State.decoded_result_eq_ok (s : State) (d : BitVec 8) (f : ParsedFrame) :
    (s.decoded d f).status.result = .ok ↔ s.checksumMatches d f := by
  refine ⟨fun hok => by_contra fun h => ?_, fun h => (State.decoded_of_checksumMatches h).2⟩
  rw [(State.decoded_of_not_checksumMatches h).2] at hok
  cases hok

theorem State.decoded_err (s : State) (d : BitVec 8) (f : ParsedFrame) :
    (s.decoded d f).status.err = (s.status.err || decide ¬ s.checksumMatches d f) := by
  show (s.status.err || decide ((s.decoded d f).status.result ≠ .ok)) = _
  rw [decide_eq_decide.mpr (not_congr (s.decoded_result_eq_ok d f))]

/-- R200: a refused DECODE never reports OK. -/
theorem accepted_of_decodeFrame {s t : State} {d : BitVec 8} (h : exec (.decodeFrame d) s = .next t)
    (hok : t.status.result = .ok) : s.precheckPasses d ∧ ∃ f, s.parseFrame d = .ok f ∧ s.checksumMatches d f := by
  rcases decodeFrame_cases h with ⟨hp, rfl⟩ | ⟨hp, f, hf, rfl⟩
  · exact absurd hok (State.codecCheck_ne_ok hp)
  · exact ⟨hp, f, hf, (s.decoded_result_eq_ok d f).mp hok⟩

theorem decodeFrame_mismatch {s : State} {d : BitVec 8} {f : ParsedFrame} (hp : s.precheckPasses d)
    (hf : s.parseFrame d = .ok f) (h : ¬ s.checksumMatches d f) :
    ∃ t, exec (.decodeFrame d) s = .next t ∧ t.status.result = .checksumMismatch ∧ t.rxFlag = 0 := by
  obtain ⟨hflag, hresult⟩ := State.decoded_of_not_checksumMatches h
  exact ⟨_, exec_decodeFrame_of_parse hp hf, hresult, hflag⟩

/-- Settles O33: the bytes given are the parsed frame, and the registers are State.decoded's. -/
theorem decodeParsesAndValidates : Obligations.DecodeParsesAndValidates := by
  intro s d b0 b1 b2 b3 bs c0 c1 c2 c3 hp hb0 hb1 hb2 hb3 hlen hrange hc0 hc1 hc2 hc3
  obtain ⟨h8, -, -⟩ := hp.bounds
  have hsum : s.checksumAt d = s.base + (s.desc d).N - 4 := rfl
  have hf : s.parseFrame d = .ok ⟨b0, b1, b2, b3, bs, c0, c1, c2, c3⟩ := by
    refine (s.parseFrame_eq_ok d _).mpr ⟨(Memory.readFour_eq_ok ..).mpr ⟨hb0, hb1, hb2, hb3⟩,
      (Memory.readBytes_eq_ok ..).mpr ⟨hlen, hrange⟩, (Memory.readFour_eq_ok ..).mpr ⟨hc0, ?_, ?_, ?_⟩⟩
    · rwa [hsum, show s.base + (s.desc d).N - 4 + 1 = s.base + (s.desc d).N - 3 by omega]
    · rwa [hsum, show s.base + (s.desc d).N - 4 + 2 = s.base + (s.desc d).N - 2 by omega]
    · rwa [hsum, show s.base + (s.desc d).N - 4 + 3 = s.base + (s.desc d).N - 1 by omega]
  refine ⟨_, exec_decodeFrame_of_parse hp hf, rfl, ?_, State.decoded_of_checksumMatches,
    State.decoded_of_not_checksumMatches⟩
  have herr := s.decoded_err d ⟨b0, b1, b2, b3, bs, c0, c1, c2, c3⟩
  exact herr ▸ rfl

/-! ### ENCODE, then DECODE (R203) -/

theorem State.crcConf_congr {s t : State} (hpoly : t.crcPoly = s.crcPoly) (hinit : t.crcInit = s.crcInit)
    (hxorout : t.crcXorout = s.crcXorout) (hcfg : t.crcCfg = s.crcCfg) : t.crcConf = s.crcConf := by
  simp only [State.crcConf, State.refin, State.refout, hpoly, hinit, hxorout, hcfg]

/-- Settles O34: the frame that the ENCODE leaves stands in the DECODE's buffer too, so it is parsed with the canonical
header and the encoded checksum. -/
theorem encodeThenDecodeRoundTrips : Obligations.EncodeThenDecodeRoundTrips := by
  intro s t u d hexec hok ⟨hdesc, hparams, hpoly, hinit, hxorout, hcfg, hbase, hmax⟩ hbytes
  rcases encodeFrame_cases hexec with ⟨hp, rfl⟩ | ⟨hp, bs, hbs, rfl⟩
  · exact absurd hok (State.codecCheck_ne_ok hp)
  have hpu : u.precheckPasses d := by
    simp only [State.precheckPasses, State.descriptorOk, State.base, hdesc, hparams, hbase, hmax]
    exact hp
  have hframe := (State.encoded_holdsFrame hp hbs (s.crcConf.crc bs)).congr hp hdesc hbase hbytes
  obtain ⟨f, hf, hhdr, hrange, hsums⟩ := hframe.parse
  have hconf : u.crcConf = s.crcConf := State.crcConf_congr hpoly hinit hxorout hcfg
  have hcalc : u.crcConf.crc f.range = s.crcConf.crc bs := by rw [hconf, hrange]
  have hsum : f.checksum (u.desc d).order = s.crcConf.crc bs := by
    rw [hdesc]
    exact (f.checksum_eq_iff _ _).mpr hsums
  obtain ⟨hflag, hresult⟩ := State.decoded_of_checksumMatches (hcalc.trans hsum.symm)
  simp only [ParsedFrame.header, hdrBytes, List.cons.injEq, and_true] at hhdr
  obtain ⟨hb0, hb1, hb2, hb3⟩ := hhdr
  refine ⟨_, exec_decodeFrame_of_parse hpu hf, hresult, hflag.trans hb0, congrArg₂ (· ++ ·) hb1 hb2, hb3, hsum, hcalc,
    decide_eq_true hb0, decide_eq_true (hb3.trans (by rw [hdesc]; rfl)), fun j h4 hj => ?_⟩
  have hkept : ¬ s.encodeWrites d (s.base + j) := by simp only [State.encodeWrites]; omega
  exact (hbytes j (by omega)).trans (State.read?_encoded_of_not_encodeWrites hp hkept _)

/-! ### A changed byte (R204, R205) -/

/-- Settles O36: the flip falls in the range alone of what the verdict reads, and CrcConf.crc_flipBit_ne. -/
theorem oneBitFlipInTheRangeIsDetected : Obligations.OneBitFlipInTheRangeIsDetected := by
  intro s t d i k b hpoly hexec hok hi hk hb
  obtain ⟨hp, f, hf, hmatch⟩ := accepted_of_decodeFrame hexec hok
  obtain ⟨-, hfront, -⟩ := hp.layout
  obtain ⟨-, hlen, -, -, hrange, -⟩ := (s.parseFrame_eq_ok_iff_holdsFrame d f).mp hf
  have hi' : i < f.range.length := hlen ▸ hi
  have hbyte : f.range[i]? = some b := (hrange i hi').symm.trans hb
  obtain ⟨g, hg, -, hgr, hgs⟩ := s.parseFrame_write hf (s.base + (s.desc d).S + i) (b ^^^ (1#8 <<< k))
  rw [patch_inside, ← flipBit_eq_set hbyte] at hgr
  rw [patch_outside _ (.inl (by omega))] at hgs
  refine decodeFrame_mismatch hp hg fun hmatch' => CrcConf.crc_flipBit_ne (c := s.crcConf) hpoly hi' hk ?_
  calc s.crcConf.crc (flipBit f.range i k) = s.crcConf.crc g.range := by rw [hgr]
    _ = g.checksum (s.desc d).order := hmatch'
    _ = f.checksum (s.desc d).order := ParsedFrame.checksum_inj.mpr hgs
    _ = s.crcConf.crc f.range := hmatch.symm

/-- Settles O37: the range, hence its CRC, is as before, and other checksum bytes carry another checksum. -/
theorem oneBitFlipInTheChecksumIsDetected : Obligations.OneBitFlipInTheChecksumIsDetected := by
  intro s t d j k b hexec hok hj hk hb
  obtain ⟨hp, f, hf, hmatch⟩ := accepted_of_decodeFrame hexec hok
  obtain ⟨-, hfront, -⟩ := hp.layout
  obtain ⟨-, hlen, -, -, -, hsums⟩ := (s.parseFrame_eq_ok_iff_holdsFrame d f).mp hf
  have hbyte : f.sums[j]? = some b := (hsums j hj).symm.trans hb
  obtain ⟨g, hg, -, hgr, hgs⟩ := s.parseFrame_write hf (s.checksumAt d + j) (b ^^^ (1#8 <<< k))
  rw [patch_outside _ (.inr (by omega))] at hgr
  rw [patch_inside] at hgs
  refine decodeFrame_mismatch hp hg fun hmatch' => xor_byteBit_ne b hk ?_
  have hsame : g.sums = f.sums := ParsedFrame.checksum_inj.mp <|
    calc g.checksum (s.desc d).order = s.crcConf.crc g.range := hmatch'.symm
      _ = s.crcConf.crc f.range := by rw [hgr]
      _ = f.checksum (s.desc d).order := hmatch
  have hflip : g.sums[j]? = some (b ^^^ (1#8 <<< k)) := by rw [hgs, List.getElem?_set_self hj]
  rw [hsame, hbyte] at hflip
  exact (Option.some.inj hflip).symm

/-- Settles O38: range and checksum, hence the verdict, are as before, and the header byte is the new one. -/
theorem changeOutsideTheRangeKeepsTheVerdict : Obligations.ChangeOutsideTheRangeKeepsTheVerdict := by
  intro s t d j b hp hexec hj hout
  rcases decodeFrame_cases hexec with ⟨hn, -⟩ | ⟨-, f, hf, rfl⟩
  · exact absurd hp hn
  obtain ⟨-, -, hend⟩ := hp.layout
  obtain ⟨-, hlen, -, -, -, -⟩ := (s.parseFrame_eq_ok_iff_holdsFrame d f).mp hf
  obtain ⟨g, hg, hgh, hgr, hgs⟩ := s.parseFrame_write hf (s.base + j) b
  rw [patch_inside] at hgh
  rw [patch_outside _ (by omega)] at hgr hgs
  have hcalc : s.crcConf.crc g.range = s.crcConf.crc f.range := by rw [hgr]
  have hrx : g.checksum (s.desc d).order = f.checksum (s.desc d).order :=
    ParsedFrame.checksum_inj.mpr hgs
  have hnew : j < 4 → g.header[j]? = some b := fun h4 => by rw [hgh, List.getElem?_set_self h4]
  refine ⟨_, exec_decodeFrame_of_parse hp hg, ?_, hcalc, hrx, ?_, ?_, ?_, ?_⟩
  · show (if s.crcConf.crc g.range = g.checksum (s.desc d).order then _ else _) = _
    rw [hcalc, hrx]
    rfl
  · rintro rfl hok
    have hmatch := (s.decoded_result_eq_ok d f).mp hok
    obtain ⟨hflag, -⟩ := State.decoded_of_checksumMatches (hcalc.trans (hmatch.trans hrx.symm))
    exact hflag.trans (Option.some.inj (hnew (by omega)))
  · rintro rfl
    exact BitVec.extractLsb'_append_eq_left.trans (Option.some.inj (hnew (by omega)))
  · rintro rfl
    exact BitVec.extractLsb'_append_eq_right.trans (Option.some.inj (hnew (by omega)))
  · rintro rfl
    exact Option.some.inj (hnew (by omega))

end Sys2Proof.Machine

/-! Command issue, control and status, register access (42_control.md R230 to R241): each host operation as an equation,
what an abort takes from the buffer, what an operand write leaves alone, the completion of any command, and polling. -/

namespace Sys2Proof.Machine

/-! ### WR_CTRL (R237) and the soft reset (R290, R292) -/

/-- Whatever buffer a reset leaves, its registers are at R31's Reset column. -/
theorem State.resetRegisters_atReset (s : State) (m : Memory) : State.AtReset { s.resetRegisters with buf := m } := by
  constructor <;> rfl

theorem State.softReset_atReset (s : State) : s.softReset.AtReset := s.resetRegisters_atReset _

theorem State.bufferAfterAbort_of_encode {s : State} {w : Word} (hw : s.pending = some w) (hop : cmdOp w = 0x3)
    (hp : s.precheckPasses (cmdDesc w)) :
    s.bufferAfterAbort = (s.buf.erase s.base 4).erase (s.base + (s.desc (cmdDesc w)).N - 4) 4 := by
  rw [State.bufferAfterAbort, hw]
  exact if_pos ⟨hop, (s.codecCheck_eq_ok _).mpr hp⟩

/-- R292: the header and checksum bytes of an aborted ENCODE become unwritten. -/
theorem State.read?_bufferAfterAbort_of_abortLoses {s : State} {o : Nat} (ho : s.abortLoses o) :
    s.bufferAfterAbort.read? o = none := by
  obtain ⟨w, hw, hop, hp, hbyte⟩ : ∃ w, s.pending = some w ∧ cmdOp w = 0x3 ∧ s.precheckPasses (cmdDesc w) ∧
    s.encodeWrites (cmdDesc w) o := ho
  rw [State.bufferAfterAbort_of_encode hw hop hp]
  rcases hbyte with hheader | hchecksum
  · exact Memory.read?_erase_none (Memory.read?_erase_inside _ hheader)
  · obtain ⟨h8, -, -⟩ := hp.bounds
    exact Memory.read?_erase_inside _ (by omega)

/-- Settles O3: IE alone, or the soft reset and what it leaves of each byte. -/
theorem ctrlWriteStoresEnableOrSoftResets : Obligations.CtrlWriteStoresEnableOrSoftResets := by
  refine ⟨fun s w h => exec_wrCtrl_enable h, fun s w h => ?_⟩
  exact ⟨_, exec_wrCtrl_softReset h, s.softReset_atReset, ⟨rfl, rfl, rfl, rfl⟩,
    fun _ => State.read?_bufferAfterAbort_of_abortLoses, fun _ => State.read?_bufferAfterAbort_of_not_abortLoses⟩

/-! ### Issue and the writes a busy engine drops (R230, R232, R239) -/

theorem exec_wrCmd (w : Word) (s : State) :
    exec (.wrCmd w) s = .next (s.writeUnlessBusy { s with pending := some w }) := rfl

theorem exec_wrOperand {r : OperandReg} {s : State} (h : r.wf s.params = true) (w : Word) :
    exec (.wrOperand r w) s = .next (s.writeUnlessBusy (s.setOperand r w)) := if_pos h

theorem exec_wrOperand_idle {r : OperandReg} {s : State} (h : r.wf s.params = true) (hp : s.pending = none) (w : Word) :
    exec (.wrOperand r w) s = .next (s.setOperand r w) := by
  rw [exec_wrOperand h, State.writeUnlessBusy_idle hp]

/-- Setting bit 0 of a word that ends in a 0. -/
theorem append_zero_or_one (x : BitVec 31) : x ++ 0#1 ||| 1#32 = x ++ 1#1 := by
  have hone : 1#32 = 0#31 ++ 1#1 := by decide
  rw [hone, BitVec.or_append, BitVec.or_zero, BitVec.zero_or]

/-- R35: BUSY is bit 0 of STATUS, and no other bit depends on `pending`. -/
theorem State.statusWord_issued {s : State} (hp : s.pending = none) (w : Word) :
    State.statusWord { s with pending := some w } = s.statusWord ||| 1#32 := by
  have hbusy : s.busy = false := by rw [State.busy, hp, Option.isSome_none]
  conv_rhs => rw [State.statusWord, hbusy]
  exact (append_zero_or_one _).symm

/-- Settles O6: the write of an idle engine, and the one bit of STATUS that reads `pending`. -/
theorem issueMakesTheEngineBusy : Obligations.IssueMakesTheEngineBusy := by
  intro s w hp
  rw [exec_wrCmd, State.writeUnlessBusy_idle hp]
  exact ⟨rfl, State.statusWord_issued hp w⟩

/-- Settles O7: every dropped write is a State.writeUnlessBusy; WR_CTRL, WR_STATUS and WR_RO act as in every state; a
window access races by State.windowFault_busy. -/
theorem busyEngineDropsWrites : Obligations.BusyEngineDropsWrites := by
  intro s c hp
  have dropped : ∀ {i : Instr}, (∃ t, exec i s = .next (s.writeUnlessBusy t)) →
      exec i s = .next { s with status := { s.status with overrun := true } } := by
    rintro i ⟨t, h⟩
    rw [h, State.writeUnlessBusy_busy hp]
    rfl
  refine ⟨?_, ?_, fun w h => exec_wrCtrl_enable h, fun w h => ⟨_, exec_wrCtrl_softReset h, s.softReset_atReset⟩,
    fun w => ⟨_, rfl, rfl⟩, fun r w => rfl, ?_⟩
  · intro i w hi
    simp only [List.mem_cons, List.not_mem_nil, or_false] at hi
    rcases hi with rfl | rfl | rfl | rfl | rfl | rfl | rfl | rfl | rfl | rfl | rfl | rfl <;> exact dropped ⟨_, rfl⟩
  · intro i k w hi
    exact dropped ⟨_, exec_wrOperand (r := .desc i k) (decide_eq_true hi) w⟩
  · intro sz o w hin
    exact exec_window_fault (State.windowFault_busy hin (by rw [hp]; exact Option.some_ne_none c)) w

/-! ### WR_STATUS (R238) -/

@[simp] theorem Status.writeOneToClear_err (st : Status) (w : Word) :
    (st.writeOneToClear w).err = (st.err && !w.getLsbD 2) := rfl

@[simp] theorem Status.writeOneToClear_overrun (st : Status) (w : Word) :
    (st.writeOneToClear w).overrun = (st.overrun && !w.getLsbD 3) := rfl

theorem exec_wrStatus (w : Word) (s : State) :
    exec (.wrStatus w) s = .next { s with status := s.status.writeOneToClear w } := rfl

/-- Settles O12: each flag is kept where its bit of `w` is 0. -/
theorem statusWriteClearsByOnes : Obligations.StatusWriteClearsByOnes := by
  intro s w
  refine ⟨_, exec_wrStatus w s, rfl, ?_, ?_, ?_, ?_, ?_, ?_, rfl, rfl, rfl⟩
  · intro h
    rw [State.irq_eq_false_iff, Status.writeOneToClear_done, h, Bool.not_true, Bool.and_false]
    exact ⟨rfl, .inr rfl⟩
  all_goals
    intro h
    simp only [Status.writeOneToClear_done, Status.writeOneToClear_err, Status.writeOneToClear_overrun, h,
      Bool.not_true, Bool.not_false, Bool.and_false, Bool.and_true]

/-! ### RD_REG (R239) -/

theorem State.ctrlWord_eq (s : State) : s.ctrlWord = if s.ie then 1 else 0 := by
  unfold State.ctrlWord
  cases s.ie <;> rfl

/-- Settles O15: every mapped register by exec_rdReg, CTRL's one bit by State.ctrlWord_eq, an entry beyond the table by
the check in front. -/
theorem registerReadReturnsItsValue : Obligations.RegisterReadReturnsItsValue := by
  intro s
  have hctrl : exec (.rdReg .ctrl) s = .next { s with rdata := if s.ie then 1 else 0 } := by
    rw [← s.ctrlWord_eq]
    exact exec_rdReg rfl
  refine ⟨hctrl, exec_rdReg rfl, exec_rdReg rfl, exec_rdReg rfl, exec_rdReg rfl, exec_rdReg rfl, exec_rdReg rfl,
    exec_rdReg rfl, exec_rdReg rfl, exec_rdReg rfl, exec_rdReg rfl, exec_rdReg rfl, exec_rdReg rfl, exec_rdReg rfl,
    exec_rdReg rfl, exec_rdReg rfl, exec_rdReg rfl, exec_rdReg rfl, exec_rdReg rfl, exec_rdReg rfl, fun i k => ⟨?_, ?_⟩⟩
  · intro hi
    exact exec_rdReg (r := .desc i k) (decide_eq_true hi)
  · intro hi
    have hwf : ¬ (ReadReg.desc i k).wf s.params = true := fun h => absurd (of_decide_eq_true h) (not_lt.mpr hi)
    exact if_neg hwf

/-! ### WR_OPERAND and the descriptor table (R239) -/

theorem Desc.word_setWord_same (e : Desc) (k : DescWord) (w : Word) :
    (e.setWord k w).word k = if k = .hdr then w &&& hdrMask else w := by
  cases k <;> rfl

/-- Two different words are two different fields. -/
theorem Desc.word_setWord_other (e : Desc) {k k' : DescWord} (h : k' ≠ k) (w : Word) :
    (e.setWord k w).word k' = e.word k' := by
  cases k <;> cases k' <;> trivial

theorem State.desc_setOperand_same {s : State} {i : BitVec 8} (h : i.toNat < s.descs.length) (k : DescWord) (w : Word) :
    (s.setOperand (.desc i k) w).desc i = (s.desc i).setWord k w := by
  show (s.descs.set i.toNat _).getD i.toNat Desc.zero = _
  rw [List.getD_eq_getElem?_getD, List.getElem?_set_self h, Option.getD_some]

theorem State.desc_setOperand_other (s : State) {i j : BitVec 8} (h : j ≠ i) (k : DescWord) (w : Word) :
    (s.setOperand (.desc i k) w).desc j = s.desc j := by
  have hij : i.toNat ≠ j.toNat := fun he => h (BitVec.eq_of_toNat_eq he.symm)
  show (s.descs.set i.toNat _).getD j.toNat Desc.zero = s.descs.getD j.toNat Desc.zero
  rw [List.getD_eq_getElem?_getD, List.getElem?_set_ne hij, List.getD_eq_getElem?_getD]

/-- Settles O17: the write of an idle engine, and what State.setOperand does to the table. -/
theorem operandWriteStoresTheMaskedValue : Obligations.OperandWriteStoresTheMaskedValue := by
  intro s w hp
  refine ⟨exec_wrOperand_idle rfl hp w, exec_wrOperand_idle rfl hp w, exec_wrOperand_idle rfl hp w,
    exec_wrOperand_idle rfl hp w, fun i k hi hlen => ?_⟩
  have hsame := State.desc_setOperand_same (s := s) (hlen ▸ hi) k w
  refine ⟨_, exec_wrOperand_idle (r := .desc i k) (decide_eq_true hi) hp w, rfl, List.length_set, ?_, fun k' hk => ?_,
    fun j hj => s.desc_setOperand_other hj k w⟩
  · rw [hsame]
    exact Desc.word_setWord_same _ k w
  · rw [hsame]
    exact Desc.word_setWord_other _ hk w

/-! ### The host's turns (R82, R90) -/

theorem step_bus_of_decodeTxn {s : State} {tx : BusTxn} {es : List Event} {i : Instr} (he : s.events = .bus tx :: es)
    (hd : decodeTxn s.params tx = .ok i) : step s = exec i { s with events := es } :=
  stepRunsTheDecodedOperation.1 s tx es i he hd

/-- R239: a 4-byte host write at the offset of an operand register, nothing in flight. -/
theorem step_hostWrite_operand {s : State} {r : OperandReg} {w : Word} {es : List Event}
    (he : s.events = hostWrite r.offset w :: es) (h : r.wf s.params = true) (hp : s.pending = none) :
    step s = .next (State.setOperand { s with events := es } r w) :=
  (step_bus_of_decodeTxn he (decode_encode_wrOperand h w)).trans
    (exec_wrOperand_idle (s := { s with events := es }) h hp w)

/-- R239: a 4-byte host read at the offset of a register. -/
theorem step_hostRead {s : State} {r : ReadReg} {es : List Event} (he : s.events = hostRead r.offset :: es)
    (h : r.wf s.params = true) :
    step s = .next { s with events := es, rdata := State.readReg { s with events := es } r } :=
  (step_bus_of_decodeTxn he (decode_encode_rdReg h)).trans (exec_rdReg h)

/-- R32, R239: the first turn writes the word, the second reads it from the same entry. -/
theorem run_descWrite_descRead {s : State} {w : Word} {i : BitVec 8} {k : DescWord} {es : List Event}
    (he : s.events = hostWrite (descOffset i k) w :: hostRead (descOffset i k) :: es) (hp : s.pending = none)
    (hi : i.toNat < s.params.ndesc) (hlen : s.descs.length = s.params.ndesc) :
    ∃ t, Sys2Proof.core.run 2 s = .next t ∧ t.events = es ∧ t.rdata = if k = .hdr then w &&& hdrMask else w := by
  have hwrite := step_hostWrite_operand (r := .desc i k) he (decide_eq_true hi) hp
  have hread := step_hostRead (r := .desc i k) (es := es)
    (s := State.setOperand { s with events := hostRead (descOffset i k) :: es } (.desc i k) w) rfl (decide_eq_true hi)
  refine ⟨_, (run_next hwrite 1).trans (run_next hread 0), rfl, ?_⟩
  show ((State.setOperand { s with events := _ } (.desc i k) w).desc i).word k = _
  rw [State.desc_setOperand_same (hlen ▸ hi), Desc.word_setWord_same]

/-- R121: word k of an entry, counted from HDR. -/
theorem descOffset_descWordAt (i : BitVec 8) {k : Nat} (hk : k < 4) :
    BitVec.ofNat 17 (0x100 + 16 * i.toNat + 4 * k) = descOffset i (descWordAt k) := by
  interval_cases k <;> rfl

theorem descWordAt_eq_hdr_iff {k : Nat} (hk : k < 4) : descWordAt k = .hdr ↔ k = 0 := by
  interval_cases k <;> decide

/-- Settles O18, by run_descWrite_descRead at the offset of word k. -/
theorem descriptorWriteReadsBack : Obligations.DescriptorWriteReadsBack := by
  intro s w i k es hp hi hlen _ he hk
  rw [descOffset_descWordAt i hk] at he
  obtain ⟨t, hrun, hevents, hrdata⟩ := run_descWrite_descRead he hp hi hlen
  exact ⟨t, hrun, hevents, by simpa only [descWordAt_eq_hdr_iff hk, hdrMask] using hrdata⟩

/-- The registers that WR_RO names, in the order of their offsets (R240). -/
def roRegs : List RoReg :=
  [.crcResult, .rxFlag, .rxLen, .rxType, .rxCrc, .calcCrc, .infoBuf, .infoNdesc]

/-- Settles O20: the eight offsets are those of the read-only registers, and WR_RO answers the state it finds. -/
theorem readOnlyWriteHasNoEffect : Obligations.ReadOnlyWriteHasNoEffect := by
  refine ⟨fun s r w => rfl, fun s a w es ha he => ?_⟩
  obtain ⟨r, -, rfl⟩ : ∃ r ∈ roRegs, r.offset = a := List.mem_map.mp ha
  exact step_bus_of_decodeTxn he (decode_encode_wrRo s.params r w)

/-! ### Completions (R233, R235, R236) -/

theorem exec_nop (s : State) : exec .nop s = .next (s.complete .ok) := rfl

theorem exec_reserved {i : Instr} (h : i ∈ reservedInstrs) (s : State) :
    exec i s = .next (s.complete .illegalCmd) := by
  simp only [reservedInstrs, List.mem_cons, List.not_mem_nil, or_false] at h
  rcases h with rfl | rfl | rfl | rfl | rfl | rfl | rfl | rfl | rfl | rfl | rfl <;> rfl

/-- Settles O9: the completion with OK, and STATUS after it evaluated at reset. -/
theorem nopCompletesWithOk : Obligations.NopCompletesWithOk := by
  refine ⟨fun s => ?_, fun w h => decodeCommand_of_op_nop h, _, rfl, rfl⟩
  rw [exec_nop, State.complete, Status.completed_ok]

/-- Settles O10: every word with OP at least 5 decodes to one of the eleven, which all complete alike. -/
theorem reservedOpcodeCompletesWithIllegalCmd : Obligations.ReservedOpcodeCompletesWithIllegalCmd := by
  have illegal : ∀ (s : State) (i : Instr), i ∈ reservedInstrs → exec i s = .next { s with
      status := { s.status with done := true, err := true, result := .illegalCmd }, pending := none } := by
    intro s i hi
    rw [exec_reserved hi, State.complete, Status.completed_of_ne_ok _ (by decide)]
  exact ⟨illegal, fun s w h => illegal s _ (decodeCommand_mem_reservedInstrs h), _, rfl, rfl⟩

/-- The engine's turn with nothing in flight only takes that turn off the list (log entry 12). -/
theorem step_engine_idle {s : State} (he : s.engineNext) (hp : s.pending = none) : step s = .next s.afterFetch := by
  have hturn : (fetch s).1 = .idle := by
    rcases he with he | ⟨es, he⟩ <;> simp only [fetch, he, engineTurn, hp]
  have hfetch : fetch s = (.idle, s.afterFetch) := Prod.ext hturn (fetch_snd s)
  rw [step, takeTurn, hfetch]

/-- Settles O8: the engine's turn by command_completes, an idle one by step_engine_idle. -/
theorem everyCompletionSetsDoneAndFreesTheEngine : Obligations.EveryCompletionSetsDoneAndFreesTheEngine := by
  refine ⟨?_, ?_, ?_⟩
  · intro s t w hp he h
    rw [step_engine he hp] at h
    exact command_completes (s := s.afterFetch) h
  · intro s es hp he
    rw [step_engine_idle (.inr ⟨es, he⟩) hp, State.afterFetch_cons he]
  · intro s hp he
    rw [step_engine_idle (.inl he) hp, State.afterFetch_nil he]

/-! ### Polling (R241) -/

/-- With every buffer byte written the engine's turn completes the command in flight, whichever it is. -/
theorem step_completes_of_written {s : State} {w : Word} (he : s.engineNext) (hp : s.pending = some w)
    (hw : s.written 0 s.params.bufBytes) : ∃ t, step s = .next t ∧ t.pending = none ∧ t.status.done = true := by
  obtain ⟨t, ht⟩ := command_next_of_written (s := s.afterFetch) hw w
  obtain ⟨hpending, hdone, -⟩ := command_completes ht
  exact ⟨t, (step_engine he hp).trans ht, hpending, hdone⟩

/-- R239: a STATUS read takes its turn and puts the status word on the port. -/
theorem step_statusRead {s : State} {es : List Event} (he : s.events = hostRead 0x004 :: es) :
    step s = .next { s with events := es, rdata := s.statusWord } :=
  step_hostRead (r := .status) he rfl

/-- Settles O57, by induction on the number of reads: a read leaves the command in flight and the buffer alone, and with
no turn left the engine moves. -/
theorem pollingReachesCompletion : Obligations.PollingReachesCompletion := by
  intro n
  induction n with
  | zero =>
    intro s w hp he hw
    obtain ⟨t, ht, hpending, hdone⟩ := step_completes_of_written (.inl he) hp hw
    exact ⟨fun j hj => absurd hj (Nat.not_lt_zero j), t, run_next ht 0, hpending, hdone⟩
  | succ n ih =>
    intro s w hp he hw
    have hread := step_statusRead (es := List.replicate n (hostRead 0x004)) he
    obtain ⟨hpoll, t, ht, hdone⟩ :=
      ih { s with events := List.replicate n (hostRead 0x004), rdata := s.statusWord } w hp rfl hw
    refine ⟨fun j hj => ?_, t, (run_next hread _).trans ht, hdone⟩
    cases j with
    | zero =>
      have hbusy : s.statusWord.getLsbD 0 = true := by
        rw [s.statusWord_busy, s.busy_iff, hp]
        exact Option.some_ne_none w
      exact ⟨_, run_next hread 0, hp, hbusy⟩
    | succ j =>
      obtain ⟨u, hu, hrest⟩ := hpoll j (Nat.lt_of_succ_lt_succ hj)
      exact ⟨u, (run_next hread _).trans hu, hrest⟩

end Sys2Proof.Machine

/-! Exceptions (60_exceptions.md R252 to R257): the slave port rejects exactly the transactions R252 lists and no accepted
operation raises a bus error of its own; a STATUS write and a completion in either order. -/

namespace Sys2Proof

/-! ### What the transaction decoder rejects (R83, R84, R252) -/

/-- An aligned register-space offset that R31 lists: a register of its first block, or a descriptor word (R83). -/
abbrev mappedOffset (p : Params) (a : Nat) : Prop := a ≤ 0x054 ∨ (0x100 ≤ a ∧ a < 0x100 + 16 * p.ndesc)

/-- The two register decoders know the same aligned offsets. -/
theorem decodeReg_eq_none_iff {p : Params} {a : Nat} (ha : a % 4 = 0) (we : Bool) (w : Word) :
    (if we then decodeRegWrite p a w else decodeRegRead p a) = none ↔ ¬ mappedOffset p a := by
  unfold decodeRegWrite decodeRegRead mappedOffset
  cases we
  all_goals
    simp only [Bool.false_eq_true, if_true, if_false]
    split
    case h_23 =>
      simp only [imp_false] at *
      have hbeyond : ¬ a ≤ 0x054 := by omega
      rw [Option.map_eq_none_iff, descAt_eq_none, or_iff_right hbeyond]
    all_goals simp

theorem sizeOfField_eq_none {s : BitVec 2} : sizeOfField s = none ↔ s.toNat = 3 := by
  revert s
  decide

/-- R83: the register space rejects what is no 4-byte access at a mapped, aligned offset. -/
theorem decodeRegister_rejects_iff (p : Params) (t : BusTxn) :
    (∃ c, decodeRegister p t = .error { addr := t.addr, cause := c }) ↔
      t.size.toNat ≠ 2 ∨ t.addr.toNat % 4 ≠ 0 ∨ ¬ mappedOffset p t.addr.toNat := by
  have hsize : t.size ≠ 2 ↔ t.size.toNat ≠ 2 := BitVec.toNat_ne_iff_ne.symm
  unfold decodeRegister
  split
  case isTrue hs => simp [hsize.mp hs]
  case isFalse hs =>
    rw [or_iff_right (hsize.not.mp hs)]
    split
    case isTrue ha => simp [ha]
    case isFalse ha =>
      rw [or_iff_right ha, ← decodeReg_eq_none_iff (not_not.mp ha) t.we t.wdata]
      cases (if t.we then decodeRegWrite p t.addr.toNat t.wdata else decodeRegRead p t.addr.toNat) <;> simp

/-- R84: the window rejects what is of no legal width, misaligned, or reaches beyond the buffer. -/
theorem decodeWindow_rejects_iff {p : Params} {t : BusTxn} (ha : 0x10000 ≤ t.addr.toNat) :
    (∃ c, decodeWindow p t = .error { addr := t.addr, cause := c }) ↔
      t.size.toNat = 3 ∨ (t.addr.toNat - 0x10000) % 2 ^ t.size.toNat ≠ 0 ∨
        p.bufBytes < (t.addr.toNat - 0x10000) + 2 ^ t.size.toNat := by
  rw [← (setWidth_windowAddr ha).1]
  unfold decodeWindow
  split
  case h_1 hs => simp [sizeOfField_eq_none.mp hs]
  case h_2 sz hs =>
    have hlegal : ¬ t.size.toNat = 3 := fun h => by simp [sizeOfField_eq_none.mpr h] at hs
    rw [or_iff_right hlegal, ← sizeOfField_bytes hs]
    dsimp only
    split_ifs with hm hb
    · exact iff_of_true ⟨_, rfl⟩ (.inl hm)
    · exact iff_of_true ⟨_, rfl⟩ (.inr hb)
    · exact iff_of_false (fun ⟨_, h⟩ => nomatch h) (fun h => h.elim hm hb)

/-- R252: the transactions that the slave port answers with `err`, each with its own address. -/
theorem decodeTxn_rejects_iff (p : Params) (t : BusTxn) :
    (∃ c, decodeTxn p t = .error { addr := t.addr, cause := c }) ↔ Machine.busErrorTxn p t := by
  unfold decodeTxn
  split
  case isTrue ha => simpa [Machine.busErrorTxn, ha, not_le.mpr ha] using decodeRegister_rejects_iff p t
  case isFalse ha => simpa [Machine.busErrorTxn, ha, not_lt.mp ha] using decodeWindow_rejects_iff (not_lt.mp ha)

end Sys2Proof

namespace Sys2Proof.Machine

/-! ### Bus errors at the step (R252, R256) -/

theorem execCrcBlock_fault {seed : Bool} {s : State} {f : Fault} (h : execCrcBlock seed s = .fault f) :
    ∃ o, f = .uninitRead o := by
  by_cases hr : s.blkStart.toNat + s.blkLen.toNat ≤ s.params.bufBytes
  · rw [execCrcBlock_of_range _ hr] at h
    split at h <;> cases h
    exact ⟨_, rfl⟩
  · rw [execCrcBlock_of_rangeError _ (not_le.mp hr)] at h
    cases h

theorem execEncodeFrame_fault {d : BitVec 8} {s : State} {f : Fault} (h : execEncodeFrame d s = .fault f) :
    ∃ o, f = .uninitRead o := by
  by_cases hc : s.codecCheck d = .ok
  · rw [execEncodeFrame_of_ok hc] at h
    split at h <;> cases h
    exact ⟨_, rfl⟩
  · rw [execEncodeFrame_of_fail hc] at h
    cases h

theorem execDecodeFrame_fault {d : BitVec 8} {s : State} {f : Fault} (h : execDecodeFrame d s = .fault f) :
    ∃ o, f = .uninitRead o := by
  by_cases hc : s.codecCheck d = .ok
  · rw [execDecodeFrame_of_ok hc] at h
    split at h <;> cases h
    exact ⟨_, rfl⟩
  · rw [execDecodeFrame_of_fail hc] at h
    cases h

/-- R84, R94: an access that fits is refused only while busy. -/
theorem State.windowFault_of_inWindow {s : State} {sz : AccessSize} {o : BitVec 16} {f : Fault}
    (hin : inWindow s.params sz o) (h : s.windowFault sz o = some f) : f = .bufferRace (windowAddr o) := by
  by_cases hp : s.pending = none
  · rw [State.windowFault_idle hin hp] at h
    cases h
  · rw [State.windowFault_busy hin hp] at h
    exact (Option.some.inj h).symm

/-- R254, R256: an operation whose operand exists can only fault by a race or by an unwritten byte. -/
theorem exec_fault_of_wf {i : Instr} {s : State} {f : Fault} (hwf : i.wf s.params = true) (h : exec i s = .fault f) :
    (∃ a, f = .bufferRace a) ∨ ∃ o, f = .uninitRead o := by
  cases i with
  | crcBlock seed => exact .inr (execCrcBlock_fault h)
  | encodeFrame d => exact .inr (execEncodeFrame_fault h)
  | decodeFrame d => exact .inr (execDecodeFrame_fault h)
  | rdReg r => cases (exec_rdReg hwf).symm.trans h
  | wrOperand r w => cases (exec_wrOperand hwf w).symm.trans h
  | bufWr sz o w =>
    simp only [exec, execBufWr] at h
    split at h <;> cases h
    exact .inl ⟨_, State.windowFault_of_inWindow (of_decide_eq_true hwf) ‹_›⟩
  | bufRd sz o =>
    simp only [exec, execBufRd] at h
    split at h
    · cases h
      exact .inl ⟨_, State.windowFault_of_inWindow (of_decide_eq_true hwf) ‹_›⟩
    · split at h <;> cases h
      exact .inr ⟨_, rfl⟩
  | _ => cases h

/-- Settles O46: the rejected transactions are R252's, and what decodes names an existing operand. -/
theorem busErrorExactlyWhenTheRulesSay : Obligations.BusErrorExactlyWhenTheRulesSay := by
  intro s t es hp he
  rw [← decodeTxn_rejects_iff, step_bus he]
  cases hd : decodeTxn s.params t with
  | ok i =>
    have hwf : i.wf s.afterFetch.params = true := (transactionDecodeLosesNoBit s.params t i hp hd).1
    have hno : exec i s.afterFetch ≠ .fault (.busError t.addr) := fun h => by
      simpa using exec_fault_of_wf hwf h
    simpa using hno
  | error e =>
    obtain ⟨addr, cause⟩ := e
    simp

/-! ### Both orders of a clear and a completion (R82, R257) -/

theorem command_keeps_events {s t : State} {w : Word} (h : exec (decodeCommand w) s = .next t) :
    t.events = s.events := by
  rcases command_cases h with ⟨-, rfl⟩ | ⟨-, rfl⟩ | ⟨-, -, rfl⟩ | ⟨-, -, _, -, rfl⟩ | ⟨-, -, rfl⟩ | ⟨-, -, _, -, rfl⟩ |
    ⟨-, -, rfl⟩ | ⟨-, -, _, -, rfl⟩ | ⟨-, rfl⟩ <;> rfl

/-- The engine's turn takes only itself off the list of turns. -/
theorem events_of_step_engine {s t : State} {w : Word} (he : s.engineNext) (hp : s.pending = some w)
    (h : step s = .next t) : t.events = s.events.tail :=
  command_keeps_events ((step_engine he hp).symm.trans h)

/-- R238: a STATUS write takes its turn and clears by ones, whatever is in flight. -/
theorem step_statusWrite {s : State} {v : Word} {es : List Event} (he : s.events = hostWrite 0x004 v :: es) :
    step s = .next { s with events := es, status := s.status.writeOneToClear v } :=
  (step_bus_of_decodeTxn he (decode_regWrite (by decide) rfl)).trans (exec_wrStatus v _)

/-- Settles O58: whichever of the two turns comes last decides DONE; the write leaves the command and the buffer alone. -/
theorem bothOrdersOfClearAndCompletion : Obligations.BothOrdersOfClearAndCompletion := by
  intro s w v hp hw hv
  constructor
  · have he : State.engineNext { s with events := [.engine, hostWrite 0x004 v] } := .inr ⟨_, rfl⟩
    obtain ⟨t, hcomplete, hpending, -⟩ := step_completes_of_written he hp hw
    have hclear := step_statusWrite (events_of_step_engine he hp hcomplete)
    refine ⟨_, (run_next hcomplete 1).trans (run_next hclear 0), ?_, hpending⟩
    show (t.status.writeOneToClear v).done = false
    rw [Status.writeOneToClear_done, hv, Bool.not_true, Bool.and_false]
  · have hclear := step_statusWrite (s := { s with events := [hostWrite 0x004 v, .engine] }) rfl
    obtain ⟨t, hcomplete, hpending, hdone⟩ :=
      step_completes_of_written (s := { s with events := [.engine], status := s.status.writeOneToClear v })
        (.inr ⟨_, rfl⟩) hp hw
    exact ⟨t, (run_next hclear 1).trans (run_next hcomplete 0), hdone, hpending⟩

end Sys2Proof.Machine

/-! Reset and hazards (70_reset_and_hazards.md R290, R292): what a power-on turn leaves, and which turns take a command
out of flight. -/

namespace Sys2Proof.Machine

theorem State.powerOnReset_atReset (s : State) : s.powerOnReset.AtReset := s.resetRegisters_atReset []

/-- R290: a power-on turn resets the state that the turn leaves behind, whatever is in flight. -/
theorem step_powerOn {s : State} {es : List Event} (he : s.events = .powerOn :: es) :
    step s = .next (State.powerOnReset { s with events := es }) := by
  simp only [step, takeTurn, fetch, he]

/-- Settles O2: the turn by step_powerOn, its registers by State.powerOnReset_atReset; irq is low because DONE and IE are,
and the buffer is empty. -/
theorem powerOnResetRestoresEveryRegister : Obligations.PowerOnResetRestoresEveryRegister := by
  intro s es he
  exact ⟨_, step_powerOn he, State.powerOnReset_atReset _, ⟨rfl, rfl, rfl, rfl⟩, rfl, fun _ => rfl⟩

/-- Settles O4, by the cases of a step: a completion ends the command, an idle turn has none in flight, a host transaction
keeps it unless it is a soft reset, and a power-on reset aborts it. -/
theorem pendingCommandEndsOnlyByCompletionOrReset : Obligations.PendingCommandEndsOnlyByCompletionOrReset := by
  intro s t w hp h
  have hbusy : s.pending ≠ none := by rw [hp]; exact Option.some_ne_none w
  rcases step_cases h with ⟨_, he, -, hc⟩ | ⟨-, hidle, -⟩ | ⟨tx, es, i, hev, hd, hx⟩ | ⟨es, hev, rfl⟩
  · exact .inr ⟨(command_completes hc).1, .inl he⟩
  · exact absurd hidle hbusy
  · rcases hostFrame_of_exec hx hd with ⟨v, hv, rfl, rfl⟩ | hf
    · exact .inr ⟨rfl, .inr (.inr ⟨v, es, hv, hev⟩)⟩
    · exact .inl ((hf.command hbusy).1.trans hp)
  · exact .inr ⟨rfl, .inr (.inl ⟨es, hev⟩)⟩

end Sys2Proof.Machine
